-- ==== Sys2Proof/Word.lean ====
section
/-!
DEFINITION. The integers the machine computes on and the width of its instruction words.

The spec speaks of signed integers of one width XLEN, a parameter (R4): a register, a data cell, a literal, a stream
item. Each is written as the integer it denotes; that it fits XLEN bits is `Fits`, an invariant of every machine state
(Safety.lean) and a check on every instruction (WellFormed.lean). Instruction words are bits, and are bit vectors.
-/

namespace Sys2Proof

/-- MIN = -2^(XLEN-1), the least value of XLEN bits (R4, R116). -/
def minWord (xlen : Nat) : Int := -(2 ^ (xlen - 1))

/-- MAX = 2^(XLEN-1) - 1, the greatest value of XLEN bits (R4, R116). -/
def maxWord (xlen : Nat) : Int := 2 ^ (xlen - 1) - 1

/-- The value range of XLEN bits: -2^(XLEN-1) to 2^(XLEN-1) - 1 (R4). -/
abbrev Fits (xlen : Nat) (v : Int) : Prop := minWord xlen ≤ v ∧ v ≤ maxWord xlen

/-- One instruction word of ILEN = 2 * XLEN + 16 bits (R56). -/
abbrev InstrWord (xlen : Nat) := BitVec (2 * xlen + 16)

end Sys2Proof
end

