-- ==== Sys2Proof/Config.lean ====
section
/-!
DEFINITION. The configuration of a run: what is fixed while it lasts (R29).

XLEN, MEM_CAP, the program store P and its length PLEN are parameters of the step function and not state. They are
plain data here, so that every statement ranges over all of them; a machine state carries its configuration in the
field `cfg`, which no step changes (assumption log entry 1).
-/

namespace Sys2Proof

/-- The parameters of one run. The program store holds one instruction word per index (R19, R32, R56). -/
structure Config where
  /-- XLEN, the width of registers, cells, literals and stream items (R4). -/
  xlen : Nat
  /-- MEM_CAP, the number of cells of data memory (R5). -/
  memCap : Nat
  /-- P, the program store: the word at index k is entry k (R19). -/
  program : List (InstrWord xlen)
deriving DecidableEq, Repr

/-- PLEN, the number of instructions of the loaded program (R6). -/
def Config.plen (c : Config) : Nat := c.program.length

/-- The bounds the spec puts on the parameters: XLEN >= 32 (R4), MEM_CAP <= 2^(XLEN-1) (R5) and
PLEN <= 2^(XLEN-1) - 1 (R6). -/
def Config.wf (c : Config) : Bool :=
  decide (32 ≤ c.xlen) && decide (c.memCap ≤ 2 ^ (c.xlen - 1)) && decide (c.plen ≤ 2 ^ (c.xlen - 1) - 1)

/-- The reference configuration: XLEN = 32 and MEM_CAP = 16 (00_scope.md section 4), with no program loaded.
DESIGN CHOICE (unsafe where a claim is about it alone): the spec leaves the parameters open; log entry 2. -/
def Config.reference : Config := { xlen := 32, memCap := 16, program := [] }

end Sys2Proof
end

