-- ==== Sys2Proof/Syntax.lean ====
section
/-!
DEFINITION. The instructions, at the spec's abstract level (R50 to R55).

One constructor per row of spec/opcode_table.json. The table gives JUMP three rows, one per condition, so JUMP's
condition is part of the constructor (log entry 5).
-/

namespace Sys2Proof

/-- A source operand: a literal or a register reference (R52). A register index is any integer: one outside 0 .. 15
is representable and raises RegisterOutOfRange when it is resolved (R52, R84). -/
inductive Operand where
  | lit (v : Int)
  | reg (i : Int)
deriving DecidableEq, Repr

/-- A condition: exactly three values (R54). -/
inductive Condition where
  | zero
  | positive
  | negative
deriving DecidableEq, Repr

/-- The closed set of instructions, operands in written order (R50, R51). A target `tgt` is always a register index,
any integer, well formed when 0 <= tgt <= 15 (R53); it is never a literal. -/
inductive Instr where
  | cp (src : Operand) (tgt : Int)
  | load (memref : Operand) (tgt : Int)
  | store (src memref : Operand)
  | add (src1 src2 : Operand) (tgt : Int)
  | mul (src1 src2 : Operand) (tgt : Int)
  | sub (src1 src2 : Operand) (tgt : Int)
  | read (tgt : Int)
  | write (src : Operand)
  | jumpZero (src addr : Operand)
  | jumpPos (src addr : Operand)
  | jumpNeg (src addr : Operand)
deriving DecidableEq, Repr

/-- JUMP(cond, src, addr) of R51 as one form. -/
def Instr.jump : Condition → Operand → Operand → Instr
  | .zero, src, addr => .jumpZero src addr
  | .positive, src, addr => .jumpPos src addr
  | .negative, src, addr => .jumpNeg src addr

/-- The source operands of an instruction in written order (R51). -/
def Instr.sources : Instr → List Operand
  | .cp src _ => [src]
  | .load memref _ => [memref]
  | .store src memref => [src, memref]
  | .add src1 src2 _ => [src1, src2]
  | .mul src1 src2 _ => [src1, src2]
  | .sub src1 src2 _ => [src1, src2]
  | .read _ => []
  | .write src => [src]
  | .jumpZero src addr => [src, addr]
  | .jumpPos src addr => [src, addr]
  | .jumpNeg src addr => [src, addr]

/-- The target of an instruction, where its form has one (R51). -/
def Instr.target? : Instr → Option Int
  | .cp _ tgt => some tgt
  | .load _ tgt => some tgt
  | .store _ _ => none
  | .add _ _ tgt => some tgt
  | .mul _ _ tgt => some tgt
  | .sub _ _ tgt => some tgt
  | .read tgt => some tgt
  | .write _ => none
  | .jumpZero _ _ => none
  | .jumpPos _ _ => none
  | .jumpNeg _ _ => none

/-- The register index an operand names, if it names one. -/
def Operand.index? : Operand → Option Int
  | .lit _ => none
  | .reg i => some i

/-- Every register index an instruction names, in written order, the target last. -/
def Instr.indices (i : Instr) : List Int :=
  i.sources.filterMap Operand.index? ++ i.target?.toList

end Sys2Proof
end

