-- ==== Sys2Proof/WellFormed.lean ====
section
/-!
DEFINITION. Which Instruction values an instruction word carries, and which are well formed in the source's sense.

`Instr.wf` is the domain of the encode function (R65). `Instr.indicesInRange` is the source's own notion (R52, R53):
every register index is in 0 .. 15. A word of the first kind need not be of the second: it then decodes and raises
RegisterOutOfRange (R60, R61).
-/

namespace Sys2Proof

/-- A literal fits XLEN bits, and so does a register index, read as signed (R65). -/
def Operand.wf (xlen : Nat) : Operand → Bool
  | .lit v => decide (Fits xlen v)
  | .reg i => decide (Fits xlen i)

/-- The `tgt` field carries an index in 0 .. 255 (R61, R65). -/
def targetWf (t : Int) : Bool := decide (0 ≤ t ∧ t ≤ 255)

/-- The instructions an XLEN-wide instruction word carries (R65). -/
def Instr.wf (xlen : Nat) : Instr → Bool
  | .cp src tgt => src.wf xlen && targetWf tgt
  | .load memref tgt => memref.wf xlen && targetWf tgt
  | .store src memref => src.wf xlen && memref.wf xlen
  | .add src1 src2 tgt => src1.wf xlen && src2.wf xlen && targetWf tgt
  | .mul src1 src2 tgt => src1.wf xlen && src2.wf xlen && targetWf tgt
  | .sub src1 src2 tgt => src1.wf xlen && src2.wf xlen && targetWf tgt
  | .read tgt => targetWf tgt
  | .write src => src.wf xlen
  | .jumpZero src addr => src.wf xlen && addr.wf xlen
  | .jumpPos src addr => src.wf xlen && addr.wf xlen
  | .jumpNeg src addr => src.wf xlen && addr.wf xlen

/-- 0 <= i <= 15: there are exactly 16 registers (R3, R52, R53). -/
abbrev InRange (i : Int) : Prop := 0 ≤ i ∧ i ≤ 15

/-- Every register index the instruction names is in 0 .. 15: a well-formed program's instruction (R52, R53). -/
def Instr.indicesInRange (i : Instr) : Bool := i.indices.all fun k => decide (InRange k)

/-- The first register index outside 0 .. 15 in written order, the target last: the one an execution reports
(R87, R88, R168). -/
def Instr.firstBadIndex (i : Instr) : Option Int := i.indices.find? fun k => !decide (InRange k)

end Sys2Proof
end

