-- ==== Sys2Proof/Decode.lean ====
section
/-!
DEFINITION. The binary instruction word: its fields, the decoder, the encoder, the match and mask rows and the
byte order of a serialised word (R56 to R67; R38).

The decoder is total on words of ILEN bits and rejects an illegal word by name.
-/

namespace Sys2Proof

/-- The seven fields of an instruction word (R56). -/
structure Fields (xlen : Nat) where
  op : BitVec 4
  cond : BitVec 2
  am : BitVec 1
  bm : BitVec 1
  tgt : BitVec 8
  a : BitVec xlen
  b : BitVec xlen
deriving DecidableEq, Repr

/-- The word {B, A, tgt, bm, am, cond, op}, the first in the most significant place (R56). -/
def pack {xlen : Nat} (f : Fields xlen) : InstrWord xlen :=
  (f.b ++ f.a ++ f.tgt ++ f.bm ++ f.am ++ f.cond ++ f.op).cast (by omega)

/-- The fields of a word, each at the place R56 gives it. -/
def fieldsOf {xlen : Nat} (w : InstrWord xlen) : Fields xlen where
  op := w.extractLsb' 0 4
  cond := w.extractLsb' 4 2
  am := w.extractLsb' 6 1
  bm := w.extractLsb' 7 1
  tgt := w.extractLsb' 8 8
  a := w.extractLsb' 16 xlen
  b := w.extractLsb' (xlen + 16) xlen

/-- Why a word is illegal: the four grounds (a) to (d) of R64, in that order. -/
inductive Illegal where
  /-- (a) `op` is 0 or 10 to 15. -/
  | opcode
  /-- (b) `op` is 9 and `cond` is 3. -/
  | jumpCondition
  /-- (c) `op` is not 9 and `cond` is not 0. -/
  | condNotZero
  /-- (d) a field R62 marks "zero" for this `op` is not all zeros. -/
  | unusedNotZero
deriving DecidableEq, Repr

/-- An operand field with its mode bit: 0 a literal, 1 a register index, the whole field read as signed
(R59, R60). -/
def operandOf {xlen : Nat} (mode : BitVec 1) (field : BitVec xlen) : Operand :=
  if mode = 0 then .lit field.toInt else .reg field.toInt

/-- The `tgt` field read as unsigned (R61). -/
def targetOf (tgt : BitVec 8) : Int := (tgt.toNat : Int)

/-- A form whose `cond` field is not used: `cond` must be zero, and so must every unused field (R63, R64 c, d). -/
def strict (condZero unusedZero : Bool) (i : Instr) : Except Illegal Instr :=
  if !condZero then .error .condNotZero else if !unusedZero then .error .unusedNotZero else .ok i

/-- JUMP by its condition number: Zero 0, Positive 1, Negative 2, and 3 is illegal (R58, R64 b); `tgt` is unused
(R62). -/
def jumpOf (cond : BitVec 2) (unusedZero : Bool) (src addr : Operand) : Except Illegal Instr :=
  match cond.toNat with
  | 0 => strict true unusedZero (.jumpZero src addr)
  | 1 => strict true unusedZero (.jumpPos src addr)
  | 2 => strict true unusedZero (.jumpNeg src addr)
  | _ => .error .jumpCondition

/-- Decoding by opcode number, the operands where R62 places them (R57, R62 to R64). -/
def decodeFields {xlen : Nat} (f : Fields xlen) : Except Illegal Instr :=
  let a := operandOf f.am f.a
  let b := operandOf f.bm f.b
  let t := targetOf f.tgt
  let aZero := f.am == 0 && f.a == 0
  let bZero := f.bm == 0 && f.b == 0
  let tZero := f.tgt == 0
  let cZero := f.cond == 0
  match f.op.toNat with
  | 1 => strict cZero bZero (.cp a t)
  | 2 => strict cZero bZero (.load a t)
  | 3 => strict cZero tZero (.store a b)
  | 4 => strict cZero true (.add a b t)
  | 5 => strict cZero true (.mul a b t)
  | 6 => strict cZero true (.sub a b t)
  | 7 => strict cZero (aZero && bZero) (.read t)
  | 8 => strict cZero (bZero && tZero) (.write a)
  | 9 => jumpOf f.cond tZero a b
  | _ => .error .opcode

/-- The total decode function on ILEN-bit words (R64). -/
def decode {xlen : Nat} (w : InstrWord xlen) : Except Illegal Instr := decodeFields (fieldsOf w)

/-- A word is legal when the decoder gives an instruction (R64). -/
def legal {xlen : Nat} (w : InstrWord xlen) : Bool :=
  match decode w with
  | .ok _ => true
  | .error _ => false

/-- Every word of a program store is legal: what a loader of the binary form validates (R192). -/
def programLegal {xlen : Nat} (p : List (InstrWord xlen)) : Bool := p.all legal

/-! ### The encoder (R65), from the same tables -/

/-- The mode bit of an operand (R59, R60). -/
def modeBit : Operand → BitVec 1
  | .lit _ => 0
  | .reg _ => 1

/-- The XLEN-bit field of an operand (R59, R60). -/
def fieldBits (xlen : Nat) : Operand → BitVec xlen
  | .lit v => BitVec.ofInt xlen v
  | .reg i => BitVec.ofInt xlen i

/-- The `tgt` field of a target (R61). -/
def targetBits (t : Int) : BitVec 8 := BitVec.ofInt 8 t

/-- All fields zero but the opcode number: every unused field of a form stays so (R63, R65). -/
def blankFields (xlen : Nat) (op : BitVec 4) : Fields xlen :=
  { op := op, cond := 0, am := 0, bm := 0, tgt := 0, a := 0, b := 0 }

/-- A written operand in place A (R62). -/
def Fields.withA {xlen : Nat} (f : Fields xlen) (o : Operand) : Fields xlen :=
  { f with am := modeBit o, a := fieldBits xlen o }

/-- A written operand in place B (R62). -/
def Fields.withB {xlen : Nat} (f : Fields xlen) (o : Operand) : Fields xlen :=
  { f with bm := modeBit o, b := fieldBits xlen o }

/-- A written target (R62). -/
def Fields.withTgt {xlen : Nat} (f : Fields xlen) (t : Int) : Fields xlen :=
  { f with tgt := targetBits t }

/-- The fields of an instruction: opcode numbers of R57, condition numbers of R58, operands where R62 places them. -/
def encodeFields (xlen : Nat) : Instr → Fields xlen
  | .cp src tgt => ((blankFields xlen 1).withA src).withTgt tgt
  | .load memref tgt => ((blankFields xlen 2).withA memref).withTgt tgt
  | .store src memref => ((blankFields xlen 3).withA src).withB memref
  | .add src1 src2 tgt => (((blankFields xlen 4).withA src1).withB src2).withTgt tgt
  | .mul src1 src2 tgt => (((blankFields xlen 5).withA src1).withB src2).withTgt tgt
  | .sub src1 src2 tgt => (((blankFields xlen 6).withA src1).withB src2).withTgt tgt
  | .read tgt => (blankFields xlen 7).withTgt tgt
  | .write src => (blankFields xlen 8).withA src
  | .jumpZero src addr => (({ blankFields xlen 9 with cond := 0 }).withA src).withB addr
  | .jumpPos src addr => (({ blankFields xlen 9 with cond := 1 }).withA src).withB addr
  | .jumpNeg src addr => (({ blankFields xlen 9 with cond := 2 }).withA src).withB addr

/-- The word of an instruction (R65). -/
def encode (xlen : Nat) (i : Instr) : InstrWord xlen := pack (encodeFields xlen i)

/-! ### Match and mask (30_encoding.md B.4) -/

/-- One row of the match and mask table: a word w selects it when (w AND mask) = match. -/
structure OpcodeRow (xlen : Nat) where
  pattern : InstrWord xlen
  mask : InstrWord xlen
deriving DecidableEq, Repr

/-- A word selects a row. -/
def OpcodeRow.selects {xlen : Nat} (r : OpcodeRow xlen) (w : InstrWord xlen) : Bool := w &&& r.mask == r.pattern

/-- A row from its header digits: the fixed header bits and whether A and B are free (all mask bits 0) or fixed at
zero (all mask bits 1). -/
def rowOf (xlen : Nat) (op : BitVec 4) (cond : BitVec 2) (amFixed bmFixed tgtFixed aFixed bFixed : Bool) :
    OpcodeRow xlen where
  pattern := pack { blankFields xlen op with cond := cond }
  mask := pack
    { op := BitVec.allOnes 4
      cond := BitVec.allOnes 2
      am := if amFixed then 1 else 0
      bm := if bmFixed then 1 else 0
      tgt := if tgtFixed then BitVec.allOnes 8 else 0
      a := if aFixed then BitVec.allOnes xlen else 0
      b := if bFixed then BitVec.allOnes xlen else 0 }

/-- The eleven rows in the table's order: CP, LOAD, STORE, ADD, MUL, SUB, READ, WRITE, JUMP zero, JUMP pos,
JUMP neg (30_encoding.md B.4; for any XLEN, as its closing sentence says). -/
def opcodeRows (xlen : Nat) : List (OpcodeRow xlen) :=
  [ rowOf xlen 1 0 false true false false true,
    rowOf xlen 2 0 false true false false true,
    rowOf xlen 3 0 false false true false false,
    rowOf xlen 4 0 false false false false false,
    rowOf xlen 5 0 false false false false false,
    rowOf xlen 6 0 false false false false false,
    rowOf xlen 7 0 true true false true true,
    rowOf xlen 8 0 false true true false true,
    rowOf xlen 9 0 false false true false false,
    rowOf xlen 9 1 false false true false false,
    rowOf xlen 9 2 false false true false false ]

/-- The place of an instruction's row in the table. -/
def rowIndex : Instr → Nat
  | .cp _ _ => 0
  | .load _ _ => 1
  | .store _ _ => 2
  | .add _ _ _ => 3
  | .mul _ _ _ => 4
  | .sub _ _ _ => 5
  | .read _ => 6
  | .write _ => 7
  | .jumpZero _ _ => 8
  | .jumpPos _ _ => 9
  | .jumpNeg _ _ => 10

/-! ### Serialised words (R38) -/

/-- The little-endian bytes of a value: byte j holds bits 8j+7 .. 8j (R38). -/
def serialise : Nat → Nat → List (BitVec 8)
  | 0, _ => []
  | n + 1, v => BitVec.ofNat 8 v :: serialise n (v / 256)

/-- The value that little-endian bytes serialise (R38). -/
def deserialise : List (BitVec 8) → Nat
  | [] => 0
  | b :: bs => b.toNat + 256 * deserialise bs

/-- The number of bytes of a serialised instruction word. -/
def wordBytes (xlen : Nat) : Nat := (2 * xlen + 16 + 7) / 8

/-- The instruction word that serialised bytes hold: refused when the value does not fit ILEN bits or the number of
bytes is not a word's. -/
def wordOfBytes (xlen : Nat) (bs : List (BitVec 8)) : Option (InstrWord xlen) :=
  if bs.length = wordBytes xlen ∧ deserialise bs < 2 ^ (2 * xlen + 16) then some (BitVec.ofNat _ (deserialise bs))
  else none

/-- What the decoder reads from an opcode-table word at XLEN = 32, the table's width: the word laid out as its
little-endian bytes and decoded (log entry 10). Bits above `nbits` are zero. -/
def decodeTableWord (nbits w : Nat) : Option Instr :=
  match wordOfBytes 32 (serialise (max (wordBytes 32) ((nbits + 7) / 8)) (w % 2 ^ nbits)) with
  | none => none
  | some word =>
    match decode word with
    | .ok i => some i
    | .error _ => none

end Sys2Proof
end

