-- ==== Sys2Proof/Machine/State.lean ====
section
/-!
DEFINITION. The state of the machine as plain data, its reset, and the reasons a step request can stop.

The state is exactly the components of R10 (registers, data memory, halted, fault, in, out), and beside them the
configuration of the run (R29), which no step changes (log entry 1).
-/

namespace Sys2Proof.Machine

/-- The execution-time errors, exactly five (R160). -/
inductive ErrorKind where
  | registerOutOfRange
  | memoryOutOfBounds
  | inputExhausted
  | illegalInstruction
  | stepAfterHalt
deriving DecidableEq, Repr

/-- An error with its info value, as the fault record holds it (R17, R181). -/
structure FaultRecord where
  kind : ErrorKind
  info : Int
deriving DecidableEq, Repr

/-- Data memory by cell: (address, value), addresses strictly rising, no entry zero; an unlisted cell reads 0, the
reset content (R18, R26, R31). The smallest unit is the cell, so an entry holds a cell and not a byte (log entry 3). -/
abbrev Memory := List (Nat × Int)

/-- The architectural state (R10) and the configuration of the run (R29). -/
structure State where
  /-- XLEN, MEM_CAP, P and PLEN: fixed for the run (R29). -/
  cfg : Config
  /-- x[0..15]; x[15] is the instruction pointer and nothing else is (R11, R14). -/
  x : Vector Int 16
  /-- M[0..MEM_CAP-1] (R18). -/
  mem : Memory
  /-- The halted flag (R16). -/
  halted : Bool
  /-- The fault record, None while no error has been raised (R17). -/
  fault : Option FaultRecord
  /-- `in`: the input items not yet consumed (R20). -/
  input : List Int
  /-- `out`: the output items emitted since reset (R21). -/
  output : List Int
deriving DecidableEq, Repr

/-- Why a step request is not performed. An error an instruction raises is no `Fault`: it is a next state whose fault
record is set (R17, R92). -/
inductive Fault where
  /-- A step requested after Halted was returned: Error(StepAfterHalt), no state change (R93, R166). Raised by `step`
  alone. Safe: the spec's own outcome. -/
  | stepAfterHalt
  /-- A step requested in the faulted state: not performed, the recorded error is reported again (R94). Raised by
  `step` alone. Safe: the spec's own outcome. -/
  | faulted (record : FaultRecord)
deriving DecidableEq, Repr

/-- Why the model has no meaning for an instruction. -/
inductive Refusal where
  /-- The instruction has no meaning yet. Raised by a refused arm of `exec`; no arm is refused. Safe. -/
  | notModelled (mnemonic : String)
deriving DecidableEq, Repr

/-- Reset under a configuration with the whole input sequence of the new run: every register and cell zero, halted
false, fault None, out empty (R26, R190). -/
def State.resetWith (cfg : Config) (input : List Int) : State where
  cfg := cfg
  x := Vector.replicate 16 0
  mem := []
  halted := false
  fault := none
  input := input
  output := []

/-- The machine right after reset, in the reference configuration with no program loaded and an empty input sequence
(log entries 2 and 4). -/
def State.reset : State := State.resetWith Config.reference []

end Sys2Proof.Machine
end

