-- ==== Sys2Proof/Machine/Ops.lean ====
section
/-!
DEFINITION. The named operations the instructions are written with: wrapping, registers, data memory, streams, the
fetch, the advance, and raising an error.
-/

namespace Sys2Proof.Machine

/-- One outcome of an instruction or of a step. -/
abbrev StepOutcome := Host.Outcome State Fault Refusal

/-- wrap(z): the integer of XLEN bits congruent to z modulo 2^XLEN (00_scope.md section 5.1; R110). -/
def wrap (xlen : Nat) (z : Int) : Int := Int.bmod z (2 ^ xlen)

/-! ### Data memory, by cell (R18, R30 to R40) -/

/-- The value of a cell: what is listed, else 0 (R26, R48). -/
def Memory.read : Memory → Nat → Int
  | [], _ => 0
  | (b, v) :: rest, a => if a = b then v else Memory.read rest a

/-- Put a non-zero value at an address, keeping the addresses strictly rising. -/
def Memory.insert : Memory → Nat → Int → Memory
  | [], a, v => [(a, v)]
  | (b, w) :: rest, a, v =>
    if a < b then (a, v) :: (b, w) :: rest
    else if a = b then (a, v) :: rest
    else (b, w) :: Memory.insert rest a v

/-- Drop the entry of an address, if there is one. -/
def Memory.erase : Memory → Nat → Memory
  | [], _ => []
  | (b, w) :: rest, a => if a = b then rest else (b, w) :: Memory.erase rest a

/-- Write one whole cell (R33). Writing the value an unlisted cell reads as removes the entry. -/
def Memory.write (m : Memory) (a : Nat) (v : Int) : Memory :=
  if v = 0 then m.erase a else m.insert a v

/-- The canonical form: addresses strictly rising, no entry zero. -/
def Memory.wf : Memory → Bool
  | [] => true
  | [(_, v)] => v != 0
  | (a, v) :: (b, w) :: rest => v != 0 && decide (a < b) && Memory.wf ((b, w) :: rest)

/-! ### Serialised cells (R38) -/

/-- The number of bytes of a serialised cell (log entry 10). -/
def cellBytes (xlen : Nat) : Nat := (xlen + 7) / 8

/-- The bytes of a cell: the XLEN bits of its value, a negative one in two's complement, lowest byte first (R4, R38). -/
def serialiseCell (xlen : Nat) (v : Int) : List (BitVec 8) := serialise (cellBytes xlen) (BitVec.ofInt xlen v).toNat

/-- The cell that serialised bytes hold, its XLEN bits read as signed: refused when the value does not fit XLEN bits or
the number of bytes is not a cell's (log entry 10). -/
def cellOfBytes (xlen : Nat) (bs : List (BitVec 8)) : Option Int :=
  if bs.length = cellBytes xlen ∧ deserialise bs < 2 ^ xlen then some (BitVec.ofNat xlen (deserialise bs)).toInt
  else none

/-! ### Registers (R11 to R15) -/

/-- x[i]. -/
def State.getX (s : State) (i : Fin 16) : Int := s.x[i]

/-- x[i] <- v. No register is hardwired, and no write is checked or special (R12, R99). -/
def State.setX (s : State) (i : Fin 16) (v : Int) : State := { s with x := s.x.set i v }

/-- The instruction pointer: register 15 and nothing else (R14). -/
def State.ip (s : State) : Int := s.getX 15

/-- ip <- v (R14). -/
def State.setIp (s : State) (v : Int) : State := s.setX 15 v

/-- The advance: x[15] <- wrap(x[15] + 1), on the value x[15] holds after the instruction's own writes (R89). -/
def State.advance (s : State) : State := s.setIp (wrap s.cfg.xlen (s.ip + 1))

/-! ### Raising an error (R92, R169, R170) -/

/-- Taking an error, the one shared operation: the fault record is set, and no register (the ip included), no cell,
neither stream and not `halted` changes (R17, R92). Control goes nowhere: there is no handler, no saved pc, no vector
(R169). There is no return beside it: only reset leaves the faulted state (R171, R190). -/
def State.raise (s : State) (e : FaultRecord) : State := { s with fault := some e }

/-- Go on with a checked value, or raise the error its check found. Every check of an instruction stands before its
first write (R88), so the state raised in is the state before the instruction. -/
def attempt {α : Type} (s : State) (r : Except FaultRecord α) (k : α → StepOutcome) : StepOutcome :=
  match r with
  | .ok a => k a
  | .error e => .next (s.raise e)

/-! ### Checked access to data memory (R34, R35) -/

/-- A data address is valid when 0 <= a < MEM_CAP, read as signed (R34). -/
abbrev State.ValidAddress (s : State) (a : Int) : Prop := 0 ≤ a ∧ a < s.cfg.memCap

/-- The content of the cell at a data address; a number that is no cell of the machine reads 0 here and is never
reached by LOAD, which checks first. -/
def State.cell (s : State) (a : Int) : Int := if 0 ≤ a then s.mem.read a.toNat else 0

/-- M[a] <- v at a valid address. -/
def State.setCell (s : State) (a v : Int) : State := { s with mem := s.mem.write a.toNat v }

/-- MemRead(a, 1): MemoryOutOfBounds(a) unless 0 <= a < MEM_CAP (R34; 00_scope.md section 5.2). -/
def memRead (s : State) (a : Int) : Except FaultRecord Int :=
  if s.ValidAddress a then .ok (s.cell a) else .error ⟨.memoryOutOfBounds, a⟩

/-- MemWrite(a, 1, v): MemoryOutOfBounds(a) unless 0 <= a < MEM_CAP, and nothing moved then (R34). -/
def memWrite (s : State) (a v : Int) : Except FaultRecord State :=
  if s.ValidAddress a then .ok (s.setCell a v) else .error ⟨.memoryOutOfBounds, a⟩

/-! ### Streams (R20, R21) -/

/-- in <- rest. -/
def State.withInput (s : State) (rest : List Int) : State := { s with input := rest }

/-- The next input item and the state without it, or InputExhausted(0) when none remains (R120, R164). -/
def takeInput (s : State) : Except FaultRecord (Int × State) :=
  match s.input with
  | [] => .error ⟨.inputExhausted, 0⟩
  | v :: rest => .ok (v, s.withInput rest)

/-- out <- out ++ [v]; the sink accepts every item (R121, R124). -/
def State.emit (s : State) (v : Int) : State := { s with output := s.output ++ [v] }

/-! ### Fetch (R82, R83) -/

/-- The program index the ip addresses: 0 <= x[15] < PLEN, read as signed (R82). -/
abbrev State.IpInProgram (s : State) : Prop := 0 ≤ s.ip ∧ s.ip < s.cfg.plen

/-- The word at P[x[15]]; none when the ip is outside the program (R82, R83). The fetch has no side effect. -/
def State.fetch (s : State) : Option (InstrWord s.cfg.xlen) :=
  if 0 ≤ s.ip then s.cfg.program[s.ip.toNat]? else none

/-- The halt: `halted` is set and nothing else changes (R82, R173). -/
def State.halt (s : State) : State := { s with halted := true }

/-! ### Placing a word (used by withFetchWord) -/

/-- The program with a word at an index, later words kept, the gap before it filled with all-zero words (illegal
words). -/
def placeWord {xlen : Nat} (p : List (InstrWord xlen)) (k : Nat) (w : InstrWord xlen) : List (InstrWord xlen) :=
  p.take k ++ List.replicate (k - p.length) 0 ++ w :: p.drop (k + 1)

/-- The word an opcode-table number denotes at a width: bit i of the number is bit i of the word, bits from `nbits`
on are zero. -/
def tableWord (xlen nbits w : Nat) : InstrWord xlen := BitVec.ofNat _ (w % 2 ^ nbits)

end Sys2Proof.Machine
end

