-- ==== Sys2Proof/Machine/Operands.lean ====
section
/-!
DEFINITION. The operand resolver: `value` of a source operand and `target` of a register index (R84, R85).
-/

namespace Sys2Proof.Machine

/-- RegisterOutOfRange with the offending index as wrap(index) (R161, R181). -/
def badRegister (s : State) (i : Int) : FaultRecord := ⟨.registerOutOfRange, wrap s.cfg.xlen i⟩

/-- The register slot an index names: 0 <= i <= 15, else RegisterOutOfRange (R162). -/
def slot (s : State) (i : Int) : Except FaultRecord (Fin 16) :=
  if h : 0 ≤ i ∧ i ≤ 15 then .ok ⟨i.toNat, by omega⟩ else .error (badRegister s i)

/-- value(o), for a source operand (R84): no side effect. -/
def value (s : State) : Operand → Except FaultRecord Int
  | .lit v => .ok v
  | .reg i =>
    match slot s i with
    | .ok r => .ok (s.getX r)
    | .error e => .error e

/-- target(t): the slot the instruction will write; reads nothing, writes nothing (R85). -/
def target (s : State) (t : Int) : Except FaultRecord (Fin 16) := slot s t

end Sys2Proof.Machine
end

