-- ==== Sys2Proof/Machine/Arithmetic.lean ====
section
/-!
DEFINITION. The ALU and the instructions ADD, MUL and SUB (42_arithmetic.md).
-/

namespace Sys2Proof.Machine

/-- The wrapped sum (R110, R111). -/
def aluAdd (xlen : Nat) (p q : Int) : Int := wrap xlen (p + q)

/-- The wrapped product, the low XLEN bits of the exact signed product (R110, R112). -/
def aluMul (xlen : Nat) (p q : Int) : Int := wrap xlen (p * q)

/-- The wrapped difference, first source minus second (R110, R113). -/
def aluSub (xlen : Nat) (p q : Int) : Int := wrap xlen (p - q)

/-- The shape of the three arithmetic instructions: both sources, then the target, then the write of the result
computed on the values before the instruction (R88, R114). -/
def arithmetic (f : Int → Int → Int) (src1 src2 : Operand) (tgt : Int) (s : State) : StepOutcome :=
  attempt s (value s src1) fun p =>
  attempt s (value s src2) fun q =>
  attempt s (target s tgt) fun t =>
  .next (s.setX t (f p q)).advance

/-- ADD src1, src2, tgt (R111). -/
def execAdd (src1 src2 : Operand) (tgt : Int) (s : State) : StepOutcome :=
  arithmetic (aluAdd s.cfg.xlen) src1 src2 tgt s

/-- MUL src1, src2, tgt (R112). -/
def execMul (src1 src2 : Operand) (tgt : Int) (s : State) : StepOutcome :=
  arithmetic (aluMul s.cfg.xlen) src1 src2 tgt s

/-- SUB src1, src2, tgt (R113). -/
def execSub (src1 src2 : Operand) (tgt : Int) (s : State) : StepOutcome :=
  arithmetic (aluSub s.cfg.xlen) src1 src2 tgt s

end Sys2Proof.Machine
end

