-- ==== Sys2Proof/Machine/Flags.lean ====
section
/-!
DEFINITION. The condition evaluator. The machine has no flags and no condition codes (R22): a condition is evaluated
on a value, and nothing is remembered.
-/

namespace Sys2Proof.Machine

/-- evaluate(c, v): Zero when v = 0, Positive when v > 0, Negative when v < 0, compared as signed (R86). -/
def evaluate (c : Condition) (v : Int) : Bool :=
  match c with
  | .zero => decide (v = 0)
  | .positive => decide (0 < v)
  | .negative => decide (v < 0)

end Sys2Proof.Machine
end

