-- ==== Sys2Proof/Machine/ControlFlow.lean ====
section
/-!
DEFINITION. JUMP (44_control_flow.md), one meaning per row of the opcode table.
-/

namespace Sys2Proof.Machine

/-- JUMP cond, src, addr (R130): both operands are resolved whether or not the jump is taken (R135); taken, the ip is
the absolute index value(addr), unchecked (R131, R132), and the advance is suppressed; not taken, only the advance
happens. -/
def jumpWhen (c : Condition) (src addr : Operand) (s : State) : StepOutcome :=
  attempt s (value s src) fun v =>
  attempt s (value s addr) fun a =>
  .next (if evaluate c v then s.setIp a else s.advance)

/-- JUMP zero, src, addr (R130). -/
def execJumpZero (src addr : Operand) (s : State) : StepOutcome := jumpWhen .zero src addr s

/-- JUMP pos, src, addr (R130). -/
def execJumpPos (src addr : Operand) (s : State) : StepOutcome := jumpWhen .positive src addr s

/-- JUMP neg, src, addr (R130). -/
def execJumpNeg (src addr : Operand) (s : State) : StepOutcome := jumpWhen .negative src addr s

end Sys2Proof.Machine
end

