-- ==== Sys2Proof/Machine/DataMovement.lean ====
section
/-!
DEFINITION. CP, LOAD and STORE (41_data_movement.md).
-/

namespace Sys2Proof.Machine

/-- CP src, tgt (R100). -/
def execCp (src : Operand) (tgt : Int) (s : State) : StepOutcome :=
  attempt s (value s src) fun v =>
  attempt s (target s tgt) fun t =>
  .next (s.setX t v).advance

/-- LOAD memref, tgt (R101): the bounds check comes after both operands (R88). -/
def execLoad (memref : Operand) (tgt : Int) (s : State) : StepOutcome :=
  attempt s (value s memref) fun a =>
  attempt s (target s tgt) fun t =>
  attempt s (memRead s a) fun v =>
  .next (s.setX t v).advance

/-- STORE src, memref (R102): the value first, the address second. -/
def execStore (src memref : Operand) (s : State) : StepOutcome :=
  attempt s (value s src) fun v =>
  attempt s (value s memref) fun a =>
  attempt s (memWrite s a v) fun t =>
  .next t.advance

end Sys2Proof.Machine
end

