-- ==== Sys2Proof/Machine/InputOutput.lean ====
section
/-!
DEFINITION. READ and WRITE (43_io.md). READ never waits in the model: the input is a finite sequence fixed for the
run (R20, R122; log entry 6).
-/

namespace Sys2Proof.Machine

/-- READ tgt (R120): the target is checked before an item is consumed. -/
def execRead (tgt : Int) (s : State) : StepOutcome :=
  attempt s (target s tgt) fun t =>
  attempt s (takeInput s) fun (v, s') =>
  .next (s'.setX t v).advance

/-- WRITE src (R121). -/
def execWrite (src : Operand) (s : State) : StepOutcome :=
  attempt s (value s src) fun v =>
  .next (s.emit v).advance

end Sys2Proof.Machine
end

