-- ==== Sys2Proof/Machine/Dispatch.lean ====
section
/-!
DEFINITION. Dispatch on the instruction alone, exhaustive (R98): one arm per constructor.
-/

namespace Sys2Proof.Machine

def exec (i : Instr) (s : State) : Host.Outcome State Fault Refusal :=
  match i with
  | .cp src tgt => Sys2Proof.Machine.execCp src tgt s
  | .load memref tgt => Sys2Proof.Machine.execLoad memref tgt s
  | .store src memref => Sys2Proof.Machine.execStore src memref s
  | .add src1 src2 tgt => Sys2Proof.Machine.execAdd src1 src2 tgt s
  | .mul src1 src2 tgt => Sys2Proof.Machine.execMul src1 src2 tgt s
  | .sub src1 src2 tgt => Sys2Proof.Machine.execSub src1 src2 tgt s
  | .read tgt => Sys2Proof.Machine.execRead tgt s
  | .write src => Sys2Proof.Machine.execWrite src s
  | .jumpZero src addr => Sys2Proof.Machine.execJumpZero src addr s
  | .jumpPos src addr => Sys2Proof.Machine.execJumpPos src addr s
  | .jumpNeg src addr => Sys2Proof.Machine.execJumpNeg src addr s

end Sys2Proof.Machine
end

