-- ==== Sys2Proof/Machine/Step.lean ====
section
/-!
DEFINITION. One step (R80 to R83, R92 to R94, R168), and the placing of one instruction word where the next step
fetches.
-/

namespace Sys2Proof.Machine

/-- One step request. In the order of R168: a request in the faulted state is not performed (R94), one after Halted is
StepAfterHalt (R93); the halt check comes before the fetch (R82); an illegal word raises IllegalInstruction with its
index (R83, R165); otherwise the instruction runs. -/
def step (s : State) : Host.Outcome State Fault Refusal :=
  match s.fault with
  | some e => .fault (.faulted e)
  | none =>
    if s.halted then .fault .stepAfterHalt
    else
      match s.fetch with
      | none => .next s.halt
      | some w =>
        match decode w with
        | .error _ => .next (s.raise ⟨.illegalInstruction, s.ip⟩)
        | .ok i => exec i s

/-- The state whose very next step runs the given word: the word stands in the program store at the index the ip
holds. What the fetch needs besides is set too: no fault, not halted, and the ip 0 where it held a negative value,
which is no index (log entry 4). -/
def State.withFetchWord (s : State) (nbits w : Nat) : State :=
  let k := s.ip.toNat
  let placed := placeWord s.cfg.program k (tableWord s.cfg.xlen nbits w)
  let ready : State := { s with cfg := { s.cfg with program := placed }, fault := none, halted := false }
  if s.ip < 0 then ready.setIp 0 else ready

end Sys2Proof.Machine
end

