-- ==== Sys2Proof/Machine/Assembly.lean ====
section
/-!
DEFINITION. The assembly source text, as far as the spec fixes it (30_encoding.md Part C, R68 to R76): text to
Instruction values to instruction words, and the text of an instruction.

Where the text's lexical details are open the assembler refuses what the spec does not show (93_implementation_defined.md
U17; log entry 8): one space after the mnemonic, a comma and one space between arguments, no leading blank, no `+`, no
leading zero. Blanks before a comment or the end of a line are dropped.
-/

namespace Sys2Proof.Assembly

/-- The parser's two errors (R73). -/
inductive AsmError where
  | unknownOpcode
  | malformedInstruction
deriving DecidableEq, Repr

def isBlank (c : Char) : Bool := c == ' ' || c == '\t'

/-- The text from `#` to the end of the line is a comment (R68); blanks before it or at the end of the line go too. -/
def stripLine (l : List Char) : List Char :=
  ((l.takeWhile (· != '#')).reverse.dropWhile isBlank).reverse

/-- The parts of a text between separators. -/
def splitAt (sep : Char) : List Char → List (List Char)
  | [] => [[]]
  | c :: cs =>
    if c == sep then [] :: splitAt sep cs
    else
      match splitAt sep cs with
      | [] => [[c]]
      | part :: parts => (c :: part) :: parts

/-! ### Tokens (R69) -/

def digit? (c : Char) : Option Nat := if '0' ≤ c ∧ c ≤ '9' then some (c.toNat - '0'.toNat) else none

/-- The value of decimal digits after those read so far. -/
def digitsFrom (acc : Nat) : List Char → Option Nat
  | [] => some acc
  | c :: cs =>
    match digit? c with
    | none => none
    | some d => digitsFrom (10 * acc + d) cs

/-- A decimal number: at least one digit, no leading zero. -/
def natToken (l : List Char) : Option Nat :=
  match l with
  | [] => none
  | ['0'] => some 0
  | '0' :: _ => none
  | cs => digitsFrom 0 cs

/-- A register token: `r` followed by a decimal index 0 to 15; `r16` and `r-1` are none (R69). -/
def registerToken (l : List Char) : Option Nat :=
  match l with
  | 'r' :: ds =>
    match natToken ds with
    | some n => if n ≤ 15 then some n else none
    | none => none
  | _ => none

/-- A literal token: an optionally signed decimal integer (R69) that fits XLEN bits (R74). -/
def literalToken (xlen : Nat) (l : List Char) : Option Int :=
  let v : Option Int :=
    match l with
    | '-' :: ds => (natToken ds).map fun n => -(n : Int)
    | ds => (natToken ds).map fun n => (n : Int)
  v.bind fun z => if Fits xlen z then some z else none

/-- An operand token: register or literal (R70). -/
def operandToken (xlen : Nat) (l : List Char) : Option Operand :=
  match registerToken l with
  | some n => some (.reg n)
  | none => (literalToken xlen l).map .lit

/-- A target token: a register (R70). -/
def targetToken (l : List Char) : Option Int := (registerToken l).map fun n => (n : Int)

/-- A condition token: one of the words zero, pos, neg (R69). -/
def conditionToken (l : List Char) : Option Condition :=
  if l = ['z', 'e', 'r', 'o'] then some .zero
  else if l = ['p', 'o', 's'] then some .positive
  else if l = ['n', 'e', 'g'] then some .negative
  else none

/-! ### Lines (R68, R70, R73) -/

/-- The mnemonics, in upper case (R70, R75). -/
inductive Mnemonic where
  | cp | load | store | add | mul | sub | read | write | jump
deriving DecidableEq, Repr

def Mnemonic.text : Mnemonic → List Char
  | .cp => ['C', 'P']
  | .load => ['L', 'O', 'A', 'D']
  | .store => ['S', 'T', 'O', 'R', 'E']
  | .add => ['A', 'D', 'D']
  | .mul => ['M', 'U', 'L']
  | .sub => ['S', 'U', 'B']
  | .read => ['R', 'E', 'A', 'D']
  | .write => ['W', 'R', 'I', 'T', 'E']
  | .jump => ['J', 'U', 'M', 'P']

def Mnemonic.all : List Mnemonic := [.cp, .load, .store, .add, .mul, .sub, .read, .write, .jump]

def mnemonic? (l : List Char) : Option Mnemonic := Mnemonic.all.find? fun m => m.text == l

/-- The number and the kinds of the arguments are those of the form (R70). -/
def instrOf (xlen : Nat) (m : Mnemonic) (args : List (List Char)) : Option Instr :=
  match m, args with
  | .cp, [a, t] => (operandToken xlen a).bind fun a => (targetToken t).map fun t => .cp a t
  | .load, [a, t] => (operandToken xlen a).bind fun a => (targetToken t).map fun t => .load a t
  | .store, [a, b] => (operandToken xlen a).bind fun a => (operandToken xlen b).map fun b => .store a b
  | .add, [a, b, t] => (operandToken xlen a).bind fun a => (operandToken xlen b).bind fun b => (targetToken t).map fun t => .add a b t
  | .mul, [a, b, t] => (operandToken xlen a).bind fun a => (operandToken xlen b).bind fun b => (targetToken t).map fun t => .mul a b t
  | .sub, [a, b, t] => (operandToken xlen a).bind fun a => (operandToken xlen b).bind fun b => (targetToken t).map fun t => .sub a b t
  | .read, [t] => (targetToken t).map fun t => .read t
  | .write, [a] => (operandToken xlen a).map fun a => .write a
  | .jump, [c, a, b] => (conditionToken c).bind fun c => (operandToken xlen a).bind fun a => (operandToken xlen b).map fun b => Instr.jump c a b
  | _, _ => none

/-- An argument after the first begins with one space. -/
def dropSpace (l : List Char) : Option (List Char) :=
  match l with
  | ' ' :: r => some r
  | _ => none

/-- The arguments of `arg[, arg]*` (R68). -/
def argsOf (l : List Char) : Option (List (List Char)) :=
  match splitAt ',' l with
  | [] => none
  | first :: more => (more.mapM dropSpace).map fun rest => first :: rest

/-- One line: none when it is blank or only a comment, else exactly one instruction or a rejection (R68, R73). -/
def assembleLine (xlen : Nat) (line : List Char) : Except AsmError (Option Instr) :=
  let l := stripLine line
  if l.isEmpty then .ok none
  else
    match mnemonic? (l.takeWhile (· != ' ')) with
    | none => .error .unknownOpcode
    | some m =>
      match (argsOf ((l.dropWhile (· != ' ')).drop 1)).bind (instrOf xlen m) with
      | some i => .ok (some i)
      | none => .error .malformedInstruction

/-- The instructions of a list of lines, in order: the index of a line is the number of instruction lines before it
(R71). -/
def assembleLines (xlen : Nat) : List (List Char) → Except AsmError (List Instr)
  | [] => .ok []
  | l :: ls =>
    match assembleLine xlen l with
    | .error e => .error e
    | .ok none => assembleLines xlen ls
    | .ok (some i) =>
      match assembleLines xlen ls with
      | .error e => .error e
      | .ok is => .ok (i :: is)

/-- Text to level A: a line-oriented program (R68, R71). -/
def assemble (xlen : Nat) (text : List Char) : Except AsmError (List Instr) := assembleLines xlen (splitAt '\n' text)

/-- Level A to level B, field for field (R76). -/
def programWords (xlen : Nat) (p : List Instr) : List (InstrWord xlen) := p.map (encode xlen)

/-! ### The text of an instruction (R70) -/

def natText (n : Nat) : List Char := Nat.toDigits 10 n

def intText : Int → List Char
  | .ofNat n => natText n
  | .negSucc n => '-' :: natText (n + 1)

def operandText : Operand → List Char
  | .lit v => intText v
  | .reg i => 'r' :: intText i

def targetText (t : Int) : List Char := 'r' :: intText t

def conditionText : Condition → List Char
  | .zero => ['z', 'e', 'r', 'o']
  | .positive => ['p', 'o', 's']
  | .negative => ['n', 'e', 'g']

/-- `OPCODE arg[, arg]*` (R68). -/
def lineText (m : Mnemonic) (args : List (List Char)) : List Char :=
  m.text ++ ' ' :: (args.intersperse [',', ' ']).flatten

def instrText : Instr → List Char
  | .cp a t => lineText .cp [operandText a, targetText t]
  | .load a t => lineText .load [operandText a, targetText t]
  | .store a b => lineText .store [operandText a, operandText b]
  | .add a b t => lineText .add [operandText a, operandText b, targetText t]
  | .mul a b t => lineText .mul [operandText a, operandText b, targetText t]
  | .sub a b t => lineText .sub [operandText a, operandText b, targetText t]
  | .read t => lineText .read [targetText t]
  | .write a => lineText .write [operandText a]
  | .jumpZero a b => lineText .jump [conditionText .zero, operandText a, operandText b]
  | .jumpPos a b => lineText .jump [conditionText .positive, operandText a, operandText b]
  | .jumpNeg a b => lineText .jump [conditionText .negative, operandText a, operandText b]

end Sys2Proof.Assembly
end

