-- ==== Sys2Proof/Machine/LevelA.lean ====
section
/-!
DEFINITION. The step at the abstract level (level A of R2): the program is a sequence of Instruction values and the
fetch cannot fail (R83). `step` is the same machine over instruction words (level B).
-/

namespace Sys2Proof.Machine

/-- The instruction at index x[15] of an abstract program; none when the ip is outside it (R82). -/
def fetchA (program : List Instr) (s : State) : Option Instr :=
  if 0 ≤ s.ip then program[s.ip.toNat]? else none

/-- One step request at level A (R80). -/
def stepA (program : List Instr) (s : State) : StepOutcome :=
  match s.fault with
  | some e => .fault (.faulted e)
  | none =>
    if s.halted then .fault .stepAfterHalt
    else
      match fetchA program s with
      | none => .next s.halt
      | some i => exec i s

end Sys2Proof.Machine
end

