-- ==== Sys2Proof/Machine/Run.lean ====
section
/-!
DEFINITION. What a step request answers (R81) and `run`, repeated steps until the first Halted or Error (R95).
-/

namespace Sys2Proof.Machine

/-- StepResult with the third outcome the spec writes Error(kind, info) (R81). -/
inductive StepResult where
  /-- Continue: one instruction was executed in full. -/
  | continued
  /-- Halted: no instruction was executed, `halted` was set. -/
  | halted
  /-- Error(kind, info): no instruction was executed in full. -/
  | error (r : FaultRecord)
deriving DecidableEq, Repr

/-- What the request answered, read off the outcome of the step; none for a refusal, which no instruction gives. -/
def resultOf : StepOutcome → Option StepResult
  | .next t =>
    match t.fault with
    | some r => some (.error r)
    | none => some (if t.halted then .halted else .continued)
  | .fault .stepAfterHalt => some (.error ⟨.stepAfterHalt, 0⟩)
  | .fault (.faulted r) => some (.error r)
  | .refused _ => none

/-- The result of a step requested in a state (R80, R81). -/
def stepResult (s : State) : Option StepResult := resultOf (step s)

/-- The state after a step request: a request that is not performed leaves the state as it was (R93, R94). -/
def afterStep (s : State) : State :=
  match step s with
  | .next t => t
  | .fault _ => s
  | .refused _ => s

/-- How far a run has come within a number of step requests. -/
inductive RunEnd where
  /-- Returned Halted: the normal end (R97). -/
  | halted (s : State)
  /-- Surfaced an error: the abnormal end (R97, R169). -/
  | error (r : FaultRecord) (s : State)
  /-- Still running: nothing bounds a run (R96). -/
  | running (s : State)
deriving DecidableEq, Repr

/-- `run()`, cut after a number of requests: step until Halted or the first Error (R95). The number is the observer's;
the machine has no bound (R96). -/
def run : Nat → State → RunEnd
  | 0, s => .running s
  | n + 1, s =>
    match stepResult s with
    | some .continued => run n (afterStep s)
    | some .halted => .halted (afterStep s)
    | some (.error r) => .error r (afterStep s)
    | none => .running s

/-- The state a run cut after a number of requests stands in. -/
def RunEnd.state : RunEnd → State
  | .halted s => s
  | .error _ s => s
  | .running s => s

end Sys2Proof.Machine
end

