-- ==== Sys2Proof/Machine/Ports.lean ====
section
/-!
DEFINITION. The ports at transaction level and the host's actions (45_interfaces.md R140 to R152). The clock and the
handshakes carry no meaning of their own (R140, R198) and are left out; what crosses each port in one step is here.
-/

namespace Sys2Proof.Machine

/-! ### Control and status port (R141) -/

/-- The cause codes (R161). -/
def causeCode : ErrorKind → BitVec 3
  | .registerOutOfRange => 1
  | .memoryOutOfBounds => 2
  | .inputExhausted => 3
  | .illegalInstruction => 4
  | .stepAfterHalt => 5

/-- The `step_result` code: 0 Continue, 1 Halted, 2 Error (R141). -/
def resultCode : StepResult → BitVec 2
  | .continued => 0
  | .halted => 1
  | .error _ => 2

/-- The status outputs (R141). -/
structure StatusOut where
  halted : Bool
  fault : Bool
  cause : BitVec 3
  info : Int
deriving DecidableEq, Repr

/-- The status outputs between steps: the recorded fault's code and info, or 0 (R141, R161). -/
def statusOut (s : State) : StatusOut where
  halted := s.halted
  fault := s.fault.isSome
  cause := (s.fault.map fun r => causeCode r.kind).getD 0
  info := (s.fault.map fun r => r.info).getD 0

/-- The status outputs with a completed step: with Error, `cause` and `info` are those of the error just surfaced,
StepAfterHalt among them (R141). -/
def statusOutAfter (r : StepResult) (t : State) : StatusOut :=
  match r with
  | .error e => { statusOut t with cause := causeCode e.kind, info := e.info }
  | .continued => statusOut t
  | .halted => statusOut t

/-- What the control port answers to one step request: the `step_result` code and the status outputs (R141). -/
def controlOut (s : State) : Option (BitVec 2 × StatusOut) :=
  (stepResult s).map fun r => (resultCode r, statusOutAfter r (afterStep s))

/-! ### What the other ports carry in one step (R142 to R146) -/

/-- A transaction on the data memory port (R143). -/
inductive DataTransaction where
  | read (addr data : Int)
  | write (addr data : Int)
deriving DecidableEq, Repr

/-- All transactions of one step beside the control port's, at most one of each kind (R146). -/
structure Transactions where
  /-- `pm_addr`, when a word is fetched (R142). -/
  fetch : Option Int
  data : Option DataTransaction
  /-- `in_data`, when an item is taken (R144). -/
  input : Option Int
  /-- `out_data`, when an item is emitted (R145). -/
  output : Option Int
deriving DecidableEq, Repr

/-- `pm_addr` is the value of x[15], presented only inside the program (R142). -/
def pmAddr (s : State) : Option Int := if s.IpInProgram then some s.ip else none

/-- The data access of an instruction, only after its operands and the bounds check have passed (R143). -/
def dataTransaction (i : Instr) (s : State) : Option DataTransaction :=
  match i with
  | .load memref tgt =>
    match value s memref, target s tgt with
    | .ok a, .ok _ => if s.ValidAddress a then some (.read a (s.cell a)) else none
    | .ok _, .error _ => none
    | .error _, _ => none
  | .store src memref =>
    match value s src, value s memref with
    | .ok v, .ok a => if s.ValidAddress a then some (.write a v) else none
    | .ok _, .error _ => none
    | .error _, _ => none
  | .cp _ _ => none
  | .add _ _ _ => none
  | .mul _ _ _ => none
  | .sub _ _ _ => none
  | .read _ => none
  | .write _ => none
  | .jumpZero _ _ => none
  | .jumpPos _ _ => none
  | .jumpNeg _ _ => none

/-- The core is executing a READ whose target is resolved: it takes the offered item (R144). Whether one is offered is
not looked at here. -/
def takesInput (i : Instr) (s : State) : Bool :=
  match i with
  | .read tgt =>
    match target s tgt with
    | .ok _ => true
    | .error _ => false
  | .cp _ _ => false
  | .load _ _ => false
  | .store _ _ => false
  | .add _ _ _ => false
  | .mul _ _ _ => false
  | .sub _ _ _ => false
  | .write _ => false
  | .jumpZero _ _ => false
  | .jumpPos _ _ => false
  | .jumpNeg _ _ => false

/-- The item an instruction takes from the input (R144). -/
def inputTransaction (i : Instr) (s : State) : Option Int := if takesInput i s then s.input.head? else none

/-- The item an instruction emits (R145). -/
def outputTransaction (i : Instr) (s : State) : Option Int :=
  match i with
  | .write src =>
    match value s src with
    | .ok v => some v
    | .error _ => none
  | .cp _ _ => none
  | .load _ _ => none
  | .store _ _ => none
  | .add _ _ _ => none
  | .mul _ _ _ => none
  | .sub _ _ _ => none
  | .read _ => none
  | .jumpZero _ _ => none
  | .jumpPos _ _ => none
  | .jumpNeg _ _ => none

/-- The instruction a step request would run: none when the request is not performed, halts, or meets an illegal word. -/
def currentInstr (s : State) : Option Instr :=
  match s.fault with
  | some _ => none
  | none =>
    if s.halted then none
    else
      match s.fetch with
      | none => none
      | some w =>
        match decode w with
        | .ok i => some i
        | .error _ => none

/-- The transactions of one step request (R146). -/
def transactions (s : State) : Transactions where
  fetch := if s.fault.isNone && !s.halted then pmAddr s else none
  data := (currentInstr s).bind fun i => dataTransaction i s
  input := (currentInstr s).bind fun i => inputTransaction i s
  output := (currentInstr s).bind fun i => outputTransaction i s

/-- The transactions of a number of successive step requests. -/
def transactionTrace : Nat → State → List Transactions
  | 0, _ => []
  | n + 1, s => transactions s :: transactionTrace n (afterStep s)

/-- The state after a number of successive step requests. -/
def afterSteps : Nat → State → State
  | 0, s => s
  | n + 1, s => afterSteps n (afterStep s)

/-- `in_valid`: an item is offered; the finite sequence offers its items without a pause (R144, D16). -/
def inValid (s : State) : Bool := !s.input.isEmpty

/-- `in_eos`: the stream has ended (R144). -/
def inEos (s : State) : Bool := s.input.isEmpty

/-- `in_ready`: the core is executing a READ and takes the offered item (R144). DESIGN CHOICE: the spec says what
`in_ready` is with an item offered only; the model has it high too when a READ whose target resolves meets the end of
the stream, where nothing is taken (log entry 14). -/
def inReady (s : State) : Bool :=
  match currentInstr s with
  | some i => takesInput i s
  | none => false

/-! ### The host's actions (R150, R190, R191) -/

/-- Load program: puts P in the program store and so sets PLEN; nothing else changes (R150). -/
def State.loadProgram (s : State) (p : List (InstrWord s.cfg.xlen)) : State :=
  { s with cfg := { s.cfg with program := p } }

/-- `rst`: the reset state with the input of the new run; P, PLEN, XLEN and MEM_CAP stay (R190, R191). -/
def State.restart (s : State) (input : List Int) : State := State.resetWith s.cfg input

/-- Supply input: the host offers further items, in order, after those offered before (R150). -/
def State.supplyInput (s : State) (items : List Int) : State := { s with input := s.input ++ items }

end Sys2Proof.Machine
end

