-- ==== Sys2Proof/Safety.lean ====
section
/-!
DEFINITION. The terms claims are stated in: how a run ended (R97), the invariant of every machine state, and what it
means that a step left parts of the state alone.
-/

namespace Sys2Proof.Machine

/-- Ended normally: the only final state (R97). -/
def State.EndedNormally (s : State) : Prop := s.halted = true ∧ s.fault = none

/-- Ended abnormally: terminal, not final (R97). -/
def State.EndedAbnormally (s : State) : Prop := s.fault ≠ none

/-- Running: while both are clear a next step exists (R97, R199). -/
def State.Running (s : State) : Prop := s.halted = false ∧ s.fault = none

/-- What every machine state satisfies: the parameters are within their bounds; every register, cell and stream item
fits XLEN bits (R4); memory is canonical and lists no cell outside 0 .. MEM_CAP-1 (R18); `halted` was set by a halt
check, so no fault is recorded and the ip is outside the program (R16, R82); a recorded fault has one of the four
recordable kinds and its info fits XLEN bits (R17, R23). -/
structure State.Inv (s : State) : Prop where
  config : s.cfg.wf = true
  registers : ∀ i, Fits s.cfg.xlen (s.getX i)
  memoryForm : s.mem.wf = true
  memoryCells : ∀ c ∈ s.mem, c.1 < s.cfg.memCap ∧ Fits s.cfg.xlen c.2
  inputItems : ∀ v ∈ s.input, Fits s.cfg.xlen v
  outputItems : ∀ v ∈ s.output, Fits s.cfg.xlen v
  haltedOutside : s.halted = true → s.fault = none ∧ ¬ s.IpInProgram
  faultLegal : ∀ r, s.fault = some r → r.kind ≠ .stepAfterHalt ∧ Fits s.cfg.xlen r.info

/-- Every data cell reads as before. -/
def SameMemory (s t : State) : Prop := ∀ a, t.cell a = s.cell a

/-- Every data cell but the one at address `a` reads as before. -/
def SameMemoryBut (a : Int) (s t : State) : Prop := ∀ b, b ≠ a → t.cell b = s.cell b

/-- The configuration, `halted` and the fault record are as before. -/
def SameStatus (s t : State) : Prop := t.cfg = s.cfg ∧ t.halted = s.halted ∧ t.fault = s.fault

/-- Both streams are as before. -/
def SameStreams (s t : State) : Prop := t.input = s.input ∧ t.output = s.output

/-- Everything but the registers is as before. -/
def OnlyRegistersChanged (s t : State) : Prop := SameStatus s t ∧ SameMemory s t ∧ SameStreams s t

/-- Every register but x[15] is as before, and x[15] has advanced by one, wrapping (R89). -/
def OnlyAdvanced (s t : State) : Prop :=
  t.ip = wrap s.cfg.xlen (s.ip + 1) ∧ ∀ j : Fin 16, j ≠ 15 → t.getX j = s.getX j

/-- The registers after an instruction has written `v` to slot `r` and advanced: with r = 15 the advance is applied to
`v` (R89, R91). -/
def WroteAndAdvanced (r : Fin 16) (v : Int) (s t : State) : Prop :=
  t.ip = wrap s.cfg.xlen ((if r = 15 then v else s.ip) + 1) ∧
    ∀ j : Fin 16, j ≠ 15 → t.getX j = if j = r then v else s.getX j

/-- The state is as before but for the fault record, which now holds `e` (R92, R170). -/
def RaisedOnly (e : FaultRecord) (s t : State) : Prop := t = { s with fault := some e }

/-- The values written to the cell at an address by a sequence of steps, in order (R143). -/
def writesTo (a : Int) (trace : List Transactions) : List Int :=
  trace.filterMap fun t =>
    match t.data with
    | some (.write b v) => if b = a then some v else none
    | some (.read _ _) => none
    | none => none

/-- Apply a change of state to a next state; a fault or a refusal stays what it is. -/
def mapNext (f : State → State) : StepOutcome → StepOutcome
  | .next t => .next (f t)
  | .fault r => .fault r
  | .refused r => .refused r

/-- Whether the registers an instruction names include index `r` (as source or target). -/
def Mentions (i : Instr) (r : Fin 16) : Prop := (r.val : Int) ∈ i.indices

end Sys2Proof.Machine
end

