-- ==== Sys2Proof/Certificates/Slice0/Obligations.lean ====
section
/-!
DEFINITION. The statements about the model, for the provers. Each range is over all configurations of the spec (any
XLEN, MEM_CAP, program), over all states and over all operands, unless its hypotheses say otherwise.
-/

open Sys2Proof Sys2Proof.Machine Sys2Proof.Assembly

/-! ### Encoding -/

/-- Words written out bit by bit in 95_test_vectors.md 2.1 decode to the instructions they stand for, one at least for
each row of the opcode table. -/
def Obligations.WrittenOutWordsDecode : Prop :=
  decode (xlen := 32) 0x00000000000000010201 = .ok (.cp (.lit 1) 2) ∧
  decode (xlen := 32) 0x00000000FFFFFFFF0301 = .ok (.cp (.lit (-1)) 3) ∧
  decode (xlen := 32) 0x00000000000000010542 = .ok (.load (.reg 1) 5) ∧
  decode (xlen := 32) 0x0000000E0000000B0083 = .ok (.store (.lit 11) (.reg 14)) ∧
  decode (xlen := 32) 0x000000050000000404C4 = .ok (.add (.reg 4) (.reg 5) 4) ∧
  decode (xlen := 32) 0x00000007FFFFFFFD0905 = .ok (.mul (.lit (-3)) (.lit 7) 9) ∧
  decode (xlen := 32) 0x00000001000000010146 = .ok (.sub (.reg 1) (.lit 1) 1) ∧
  decode (xlen := 32) 0x00000000000000000F07 = .ok (.read 15) ∧
  decode (xlen := 32) 0x00000000FFFFFFF90008 = .ok (.write (.lit (-7))) ∧
  decode (xlen := 32) 0xFFFFFFFB000000000009 = .ok (.jumpZero (.lit 0) (.lit (-5))) ∧
  decode (xlen := 32) 0x00000063000000000099 = .ok (.jumpPos (.lit 0) (.reg 99)) ∧
  decode (xlen := 32) 0x0000000E000000010069 = .ok (.jumpNeg (.reg 1) (.lit 14))

/-- Decode and encode are inverse (R65): decoding the word of an instruction it can carry gives the instruction back,
and a word that decodes is the word of an instruction it can carry. For every XLEN and every operand. -/
def Obligations.DecodeAndEncodeAreInverse : Prop :=
  ∀ xlen : Nat, 1 ≤ xlen →
    (∀ i : Instr, i.wf xlen = true → decode (encode xlen i) = .ok i) ∧
    (∀ (w : InstrWord xlen) (i : Instr), decode w = .ok i → i.wf xlen = true ∧ encode xlen i = w)

/-- The match and mask table of 30_encoding.md B.4 and the decoder agree: a word that decodes selects its own
instruction's row and no other, and an illegal word selects none. -/
def Obligations.MatchMaskRowsSelectTheDecodedForm : Prop :=
  ∀ (xlen : Nat) (w : InstrWord xlen),
    (∀ i, decode w = .ok i → ∀ k r, (opcodeRows xlen)[k]? = some r → (r.selects w = true ↔ k = rowIndex i)) ∧
    (∀ e, decode w = .error e → ∀ r ∈ opcodeRows xlen, r.selects w = false)

/-- Which word decodes to which instruction: the number in `op`, the condition number in `cond`, each operand in the
fields R62 gives it, by its mode bit (0 a literal, 1 a register, the field read as signed), the target read as unsigned,
and every field that R62 marks "zero" all zeros (R62). -/
def Obligations.DecodingReadsTheFieldTable : Prop :=
  ∀ (xlen : Nat) (w : InstrWord xlen) (i : Instr),
    let op := w.extractLsb' 0 4
    let cond := w.extractLsb' 4 2
    let am := w.extractLsb' 6 1
    let bm := w.extractLsb' 7 1
    let tgt := w.extractLsb' 8 8
    let A := w.extractLsb' 16 xlen
    let B := w.extractLsb' (xlen + 16) xlen
    let operandA := if am = 0 then Operand.lit A.toInt else Operand.reg A.toInt
    let operandB := if bm = 0 then Operand.lit B.toInt else Operand.reg B.toInt
    let aZero := am = 0 ∧ A = 0
    let bZero := bm = 0 ∧ B = 0
    decode w = .ok i ↔
      (op = 1 ∧ cond = 0 ∧ bZero ∧ i = .cp operandA tgt.toNat) ∨
      (op = 2 ∧ cond = 0 ∧ bZero ∧ i = .load operandA tgt.toNat) ∨
      (op = 3 ∧ cond = 0 ∧ tgt = 0 ∧ i = .store operandA operandB) ∨
      (op = 4 ∧ cond = 0 ∧ i = .add operandA operandB tgt.toNat) ∨
      (op = 5 ∧ cond = 0 ∧ i = .mul operandA operandB tgt.toNat) ∨
      (op = 6 ∧ cond = 0 ∧ i = .sub operandA operandB tgt.toNat) ∨
      (op = 7 ∧ cond = 0 ∧ aZero ∧ bZero ∧ i = .read tgt.toNat) ∨
      (op = 8 ∧ cond = 0 ∧ bZero ∧ tgt = 0 ∧ i = .write operandA) ∨
      (op = 9 ∧ cond = 0 ∧ tgt = 0 ∧ i = .jumpZero operandA operandB) ∨
      (op = 9 ∧ cond = 1 ∧ tgt = 0 ∧ i = .jumpPos operandA operandB) ∨
      (op = 9 ∧ cond = 2 ∧ tgt = 0 ∧ i = .jumpNeg operandA operandB)

/-- A word is illegal exactly on the grounds (a) to (d) of R64, the unused fields being those R62 marks "zero". -/
def Obligations.IllegalWordsAreExactlyTheFourGrounds : Prop :=
  ∀ (xlen : Nat) (w : InstrWord xlen),
    legal w = false ↔
      let f := fieldsOf w
      let aUsed := f.op ∈ [1, 2, 3, 4, 5, 6, 8, 9]
      let bUsed := f.op ∈ [3, 4, 5, 6, 9]
      let tgtUsed := f.op ∈ [1, 2, 4, 5, 6, 7]
      (f.op = 0 ∨ 10 ≤ f.op.toNat) ∨
      (f.op = 9 ∧ f.cond = 3) ∨
      (f.op ≠ 9 ∧ f.cond ≠ 0) ∨
      (¬ aUsed ∧ (f.am ≠ 0 ∨ f.a ≠ 0)) ∨ (¬ bUsed ∧ (f.bm ≠ 0 ∨ f.b ≠ 0)) ∨ (¬ tgtUsed ∧ f.tgt ≠ 0)

/-- A serialised word has byte j equal to bits 8j+7 .. 8j of the word, and reading the bytes gives the word back; and
the same of a cell, negative values included, whose bits are those of its value in XLEN-bit two's complement (R38). The
number of bytes, the least that holds the bits, is the model's choice, log entry 10. -/
def Obligations.SerialisedWordsReadBack : Prop :=
  (∀ (xlen : Nat) (w : InstrWord xlen),
    wordOfBytes xlen (serialise (wordBytes xlen) w.toNat) = some w ∧
    ∀ j, j < wordBytes xlen → (serialise (wordBytes xlen) w.toNat)[j]? = some (w.extractLsb' (8 * j) 8)) ∧
  (∀ (xlen : Nat) (v : Int), 1 ≤ xlen → Fits xlen v →
    cellOfBytes xlen (serialiseCell xlen v) = some v ∧
    ∀ j, j < cellBytes xlen → (serialiseCell xlen v)[j]? = some ((BitVec.ofInt xlen v).extractLsb' (8 * j) 8))

/-! ### The resolver, the evaluator, the arithmetic -/

/-- `value` of a source operand (R84): the literal, the register, or RegisterOutOfRange; in a machine state the value of
an operand that a word carries is an XLEN-bit integer. -/
def Obligations.ValueResolvesSourceOperands : Prop :=
  ∀ s : State,
    (∀ v, value s (.lit v) = .ok v) ∧
    (∀ r : Fin 16, value s (.reg (r.val : Int)) = .ok (s.getX r)) ∧
    (∀ i : Int, i < 0 ∨ 15 < i → value s (.reg i) = .error ⟨.registerOutOfRange, wrap s.cfg.xlen i⟩) ∧
    (∀ (o : Operand) (v : Int), s.Inv → o.wf s.cfg.xlen = true → value s o = .ok v → Fits s.cfg.xlen v)

/-- `target` of a register index (R85): the slot, or RegisterOutOfRange. -/
def Obligations.TargetResolvesRegisterIndices : Prop :=
  ∀ s : State,
    (∀ r : Fin 16, target s (r.val : Int) = .ok r) ∧
    (∀ i : Int, i < 0 ∨ 15 < i → target s i = .error ⟨.registerOutOfRange, wrap s.cfg.xlen i⟩)

/-- The condition evaluator (R86): each condition by its sign test, and for every value exactly one condition holds. -/
def Obligations.ConditionsClassifyEveryInteger : Prop :=
  (∀ v, (evaluate .zero v = true ↔ v = 0) ∧ (evaluate .positive v = true ↔ 0 < v) ∧ (evaluate .negative v = true ↔ v < 0)) ∧
  (∀ v, ∃ c, evaluate c v = true ∧ ∀ d, evaluate d v = true → d = c) ∧
  (∀ xlen, 32 ≤ xlen → evaluate .negative (minWord xlen) = true ∧ evaluate .positive (maxWord xlen) = true)

/-- wrap(z) is the one XLEN-bit integer congruent to z modulo 2^XLEN (00_scope.md section 5.1). -/
def Obligations.WrapIsTheUniqueCongruentWord : Prop :=
  ∀ (xlen : Nat) (z w : Int), 1 ≤ xlen →
    (w = wrap xlen z ↔ Fits xlen w ∧ ∃ k : Int, w = z + k * 2 ^ xlen)

/-- The boundary results of ADD, SUB and MUL, every row of R116's table, and the closing paragraph: addition and
multiplication commute, subtraction does not, and reading the operands as unsigned changes no result. -/
def Obligations.BoundaryResultsOfTheAlu : Prop :=
  ∀ xlen : Nat, 32 ≤ xlen →
    let MAX := maxWord xlen
    let MIN := minWord xlen
    (∀ a, Fits xlen a → aluAdd xlen a 0 = a) ∧
    (∀ a, Fits xlen a → a ≠ MIN → aluAdd xlen a (-a) = 0) ∧
    aluAdd xlen MAX 1 = MIN ∧ aluAdd xlen MIN (-1) = MAX ∧ aluAdd xlen MAX MAX = -2 ∧ aluAdd xlen MIN MIN = 0 ∧
    (∀ a, Fits xlen a → aluSub xlen a a = 0) ∧
    (∀ a, Fits xlen a → aluSub xlen a 0 = a) ∧
    (∀ a, Fits xlen a → a ≠ MIN → aluSub xlen 0 a = -a) ∧
    aluSub xlen 0 MIN = MIN ∧ aluSub xlen MIN 1 = MAX ∧ aluSub xlen MAX (-1) = MIN ∧
    aluSub xlen MAX MIN = -1 ∧ aluSub xlen MIN MAX = 1 ∧
    (∀ a, Fits xlen a → aluMul xlen a 0 = 0 ∧ aluMul xlen 0 a = 0) ∧
    (∀ a, Fits xlen a → aluMul xlen a 1 = a) ∧
    (∀ a, Fits xlen a → a ≠ MIN → aluMul xlen a (-1) = -a) ∧
    aluMul xlen MIN (-1) = MIN ∧
    (∀ a b, 0 < a → 0 < b → Fits xlen (a * b) → aluMul xlen a b = a * b ∧ 0 < aluMul xlen a b) ∧
    (∀ a b, 0 < a → b < 0 → Fits xlen (a * b) → aluMul xlen a b = a * b ∧ aluMul xlen a b < 0) ∧
    (∀ a b, a < 0 → b < 0 → Fits xlen (a * b) → aluMul xlen a b = a * b ∧ 0 < aluMul xlen a b) ∧
    (xlen % 2 = 0 → aluMul xlen (2 ^ (xlen / 2)) (2 ^ (xlen / 2)) = 0) ∧
    (xlen % 2 = 0 → aluMul xlen (2 ^ (xlen / 2)) (2 ^ (xlen / 2 - 1)) = MIN) ∧
    aluMul xlen MAX MAX = 1 ∧ aluMul xlen MIN MIN = 0 ∧ aluMul xlen MAX 2 = -2 ∧
    (∀ a b, aluAdd xlen a b = aluAdd xlen b a ∧ aluMul xlen a b = aluMul xlen b a) ∧
    (∃ a b, Fits xlen a ∧ Fits xlen b ∧ aluSub xlen a b ≠ aluSub xlen b a) ∧
    (∀ a b, aluAdd xlen a b = aluAdd xlen (a % 2 ^ xlen) (b % 2 ^ xlen) ∧
      aluSub xlen a b = aluSub xlen (a % 2 ^ xlen) (b % 2 ^ xlen) ∧
      aluMul xlen a b = aluMul xlen (a % 2 ^ xlen) (b % 2 ^ xlen))

/-! ### What each instruction does when it completes, with its frame -/

/-- CP (R100): completes with tgt holding the value of src; besides tgt and the advance nothing changes. -/
def Obligations.CpWritesTheSourceValue : Prop :=
  ∀ (s : State) (src : Operand) (tgt v : Int) (r : Fin 16),
    value s src = .ok v → target s tgt = .ok r →
    ∃ t, exec (.cp src tgt) s = .next t ∧ WroteAndAdvanced r v s t ∧ OnlyRegistersChanged s t

/-- LOAD (R101): at a valid address completes with tgt holding the addressed cell; besides tgt and the advance nothing
changes. -/
def Obligations.LoadWritesTheAddressedCell : Prop :=
  ∀ (s : State) (memref : Operand) (tgt a : Int) (r : Fin 16),
    value s memref = .ok a → target s tgt = .ok r → 0 ≤ a → a < s.cfg.memCap →
    ∃ t, exec (.load memref tgt) s = .next t ∧ WroteAndAdvanced r (s.cell a) s t ∧ OnlyRegistersChanged s t

/-- STORE (R102): at a valid address completes with the cell at the value of memref holding the value of src; every
other cell reads as before, and no register but the ip changes. Memory is canonical, an invariant of every step. -/
def Obligations.StoreWritesTheAddressedCell : Prop :=
  ∀ (s : State) (src memref : Operand) (v a : Int),
    s.mem.wf = true → value s src = .ok v → value s memref = .ok a → 0 ≤ a → a < s.cfg.memCap →
    ∃ t, exec (.store src memref) s = .next t ∧ t.cell a = v ∧ SameMemoryBut a s t ∧
      OnlyAdvanced s t ∧ SameStatus s t ∧ SameStreams s t

/-- ADD (R111): completes with the wrapped sum in tgt; besides tgt and the advance nothing changes. -/
def Obligations.AddWritesTheWrappedSum : Prop :=
  ∀ (s : State) (src1 src2 : Operand) (tgt p q : Int) (r : Fin 16),
    value s src1 = .ok p → value s src2 = .ok q → target s tgt = .ok r →
    ∃ t, exec (.add src1 src2 tgt) s = .next t ∧ WroteAndAdvanced r (wrap s.cfg.xlen (p + q)) s t ∧ OnlyRegistersChanged s t

/-- MUL (R112): completes with the wrapped product in tgt; besides tgt and the advance nothing changes. -/
def Obligations.MulWritesTheWrappedProduct : Prop :=
  ∀ (s : State) (src1 src2 : Operand) (tgt p q : Int) (r : Fin 16),
    value s src1 = .ok p → value s src2 = .ok q → target s tgt = .ok r →
    ∃ t, exec (.mul src1 src2 tgt) s = .next t ∧ WroteAndAdvanced r (wrap s.cfg.xlen (p * q)) s t ∧ OnlyRegistersChanged s t

/-- SUB (R113): completes with the wrapped difference, first source minus second, in tgt; besides tgt and the advance
nothing changes. -/
def Obligations.SubWritesTheWrappedDifference : Prop :=
  ∀ (s : State) (src1 src2 : Operand) (tgt p q : Int) (r : Fin 16),
    value s src1 = .ok p → value s src2 = .ok q → target s tgt = .ok r →
    ∃ t, exec (.sub src1 src2 tgt) s = .next t ∧ WroteAndAdvanced r (wrap s.cfg.xlen (p - q)) s t ∧ OnlyRegistersChanged s t

/-- READ (R120): with an item left completes with the item in tgt and out of the input; besides, only the advance. -/
def Obligations.ReadConsumesTheNextItem : Prop :=
  ∀ (s : State) (tgt v : Int) (rest : List Int) (r : Fin 16),
    target s tgt = .ok r → s.input = v :: rest →
    ∃ t, exec (.read tgt) s = .next t ∧ t.input = rest ∧ WroteAndAdvanced r v s t ∧
      SameMemory s t ∧ SameStatus s t ∧ t.output = s.output

/-- WRITE (R121): completes with the value of src appended to the output; no register but the ip, no cell and no input
item changes. -/
def Obligations.WriteAppendsToTheOutput : Prop :=
  ∀ (s : State) (src : Operand) (v : Int),
    value s src = .ok v →
    ∃ t, exec (.write src) s = .next t ∧ t.output = s.output ++ [v] ∧ OnlyAdvanced s t ∧
      SameMemory s t ∧ SameStatus s t ∧ t.input = s.input

/-- JUMP zero, JUMP pos and JUMP neg (R130), the instructions jumpZero, jumpPos and jumpNeg that `Instr.jump` gives:
each completes; taken, x[15] is exactly the value of addr and the advance is suppressed; not taken, only the advance
happens. Nothing else changes. -/
def Obligations.JumpTakesOrAdvances : Prop :=
  ∀ (s : State) (c : Condition) (src addr : Operand) (v a : Int),
    value s src = .ok v → value s addr = .ok a →
    ∃ t, exec (Instr.jump c src addr) s = .next t ∧
      t.ip = (if evaluate c v then a else wrap s.cfg.xlen (s.ip + 1)) ∧
      (∀ j : Fin 16, j ≠ 15 → t.getX j = s.getX j) ∧ OnlyRegistersChanged s t

/-- An instruction whose target is also a source computes on the old value of that register, for CP, LOAD, ADD, MUL and
SUB and for every register (R114). -/
def Obligations.SourcesAreReadBeforeTheTargetIsWritten : Prop :=
  ∀ (s : State) (r : Fin 16) (o : Operand) (q : Int), value s o = .ok q →
    (∃ t, exec (.cp (.reg r.val) r.val) s = .next t ∧ WroteAndAdvanced r (s.getX r) s t) ∧
    (s.ValidAddress (s.getX r) →
      ∃ t, exec (.load (.reg r.val) r.val) s = .next t ∧ WroteAndAdvanced r (s.cell (s.getX r)) s t) ∧
    (∃ t, exec (.add (.reg r.val) o r.val) s = .next t ∧ WroteAndAdvanced r (wrap s.cfg.xlen (s.getX r + q)) s t) ∧
    (∃ t, exec (.add o (.reg r.val) r.val) s = .next t ∧ WroteAndAdvanced r (wrap s.cfg.xlen (q + s.getX r)) s t) ∧
    (∃ t, exec (.mul (.reg r.val) o r.val) s = .next t ∧ WroteAndAdvanced r (wrap s.cfg.xlen (s.getX r * q)) s t) ∧
    (∃ t, exec (.mul o (.reg r.val) r.val) s = .next t ∧ WroteAndAdvanced r (wrap s.cfg.xlen (q * s.getX r)) s t) ∧
    (∃ t, exec (.sub (.reg r.val) o r.val) s = .next t ∧ WroteAndAdvanced r (wrap s.cfg.xlen (s.getX r - q)) s t) ∧
    (∃ t, exec (.sub o (.reg r.val) r.val) s = .next t ∧ WroteAndAdvanced r (wrap s.cfg.xlen (q - s.getX r)) s t)

/-- A LOAD returns the value most recently stored to its address by this run, or 0 if none has been (R48): after any
number of step requests since reset; more generally, over any number of step requests from any state a cell ends with
the last value written to it; and LOAD after STORE at the same resolved address gives the stored value. A LOAD whose
target is r15 writes the same value before its advance. -/
def Obligations.LoadReturnsTheValueLastStored : Prop :=
  (∀ (n : Nat) (cfg : Config) (input : List Int) (memref : Operand) (tgt a : Int) (r : Fin 16),
    let s := afterSteps n (State.resetWith cfg input)
    let stored := writesTo a (transactionTrace n (State.resetWith cfg input))
    value s memref = .ok a → target s tgt = .ok r → s.ValidAddress a →
    ∃ u, exec (.load memref tgt) s = .next u ∧ WroteAndAdvanced r (stored.getLast?.getD 0) s u) ∧
  (∀ (n : Nat) (s : State) (a : Int), s.mem.wf = true →
    (afterSteps n s).cell a = ((writesTo a (transactionTrace n s)).getLast?).getD (s.cell a)) ∧
  (∀ (s t : State) (src memref memref' : Operand) (tgt v a : Int) (r : Fin 16),
    s.mem.wf = true → value s src = .ok v → value s memref = .ok a → s.ValidAddress a →
    exec (.store src memref) s = .next t → value t memref' = .ok a → target t tgt = .ok r →
    ∃ u, exec (.load memref' tgt) t = .next u ∧ WroteAndAdvanced r v t u)

/-! ### The instruction pointer -/

/-- An instruction at index k that names r15 as a source reads k; so ADD r15, 0, r0 at index k leaves x[0] = k (R90). -/
def Obligations.SourceRegister15ReadsTheOwnIndex : Prop :=
  ∀ s : State, s.Running → s.IpInProgram →
    value s (.reg 15) = .ok s.ip ∧
    (s.cfg.wf = true → s.fetch = some (encode s.cfg.xlen (.add (.reg 15) (.lit 0) 0)) →
      ∃ t, step s = .next t ∧ t.getX 0 = s.ip)

/-- An instruction other than JUMP whose target is r15 writes its result v into x[15] and then advances: the next
instruction is at wrap(v + 1), for CP, LOAD, ADD, MUL, SUB and READ (R91). -/
def Obligations.WritingRegister15LandsOnePast : Prop :=
  ∀ (s : State) (src1 src2 : Operand) (p q : Int), value s src1 = .ok p → value s src2 = .ok q →
    (∃ t, exec (.cp src1 15) s = .next t ∧ t.ip = wrap s.cfg.xlen (p + 1)) ∧
    (s.ValidAddress p → ∃ t, exec (.load src1 15) s = .next t ∧ t.ip = wrap s.cfg.xlen (s.cell p + 1)) ∧
    (∃ t, exec (.add src1 src2 15) s = .next t ∧ t.ip = wrap s.cfg.xlen (wrap s.cfg.xlen (p + q) + 1)) ∧
    (∃ t, exec (.mul src1 src2 15) s = .next t ∧ t.ip = wrap s.cfg.xlen (wrap s.cfg.xlen (p * q) + 1)) ∧
    (∃ t, exec (.sub src1 src2 15) s = .next t ∧ t.ip = wrap s.cfg.xlen (wrap s.cfg.xlen (p - q) + 1)) ∧
    (∀ v rest, s.input = v :: rest → ∃ t, exec (.read 15) s = .next t ∧ t.ip = wrap s.cfg.xlen (v + 1))

/-- The increment wraps at the top and the next step then halts; any ip outside the program is no error and makes the
next step halt with the ip unchanged (R28). -/
def Obligations.IpWrapsAtTheTopAndHalts : Prop :=
  (∀ s : State, s.cfg.wf = true → s.ip = maxWord s.cfg.xlen →
    s.advance.ip = minWord s.cfg.xlen ∧ (s.Running → step s.advance = .next s.advance.halt)) ∧
  (∀ s : State, s.Running → ¬ s.IpInProgram → stepResult s = some .halted ∧ (afterStep s).ip = s.ip)

/-- The target of a taken jump is absolute and unchecked: any value is written to x[15], and when it is outside the
program the jump itself returns Continue and the next step halts (R131, R132). -/
def Obligations.JumpTargetsAreAbsoluteAndUnchecked : Prop :=
  ∀ (s : State) (w : InstrWord s.cfg.xlen) (c : Condition) (src addr : Operand) (v a : Int),
    s.Running → s.fetch = some w → decode w = .ok (Instr.jump c src addr) →
    value s src = .ok v → value s addr = .ok a → evaluate c v = true →
    stepResult s = some .continued ∧ (afterStep s).ip = a ∧
      (¬ (0 ≤ a ∧ a < s.cfg.plen) → step (afterStep s) = .next { afterStep s with halted := true })

/-- JUMP zero, 0, k always takes; JUMP pos, 0, k and JUMP neg, 0, k never do; and no condition is "always": each fails
on some value (R134). -/
def Obligations.JumpZeroOnLiteralZeroAlwaysTakes : Prop :=
  (∀ (s : State) (addr : Operand) (a : Int), value s addr = .ok a →
    exec (.jumpZero (.lit 0) addr) s = .next (s.setIp a) ∧
    exec (.jumpPos (.lit 0) addr) s = .next s.advance ∧
    exec (.jumpNeg (.lit 0) addr) s = .next s.advance) ∧
  (∀ c : Condition, ∃ v, evaluate c v = false)

/-- The addr operand is resolved whether or not the jump is taken: an out-of-range index raises even when the condition
is false (R135). -/
def Obligations.JumpResolvesAddrEvenWhenNotTaken : Prop :=
  ∀ (s : State) (c : Condition) (src : Operand) (v i : Int),
    value s src = .ok v → i < 0 ∨ 15 < i →
    exec (Instr.jump c src (.reg i)) s = .next { s with fault := some ⟨.registerOutOfRange, wrap s.cfg.xlen i⟩ }

/-! ### Errors -/

/-- The register index an execution reports is the first one outside 0 .. 15 in written order, the target last, with
the index as info and nothing else changed; and an instruction whose indices are all in range never raises
RegisterOutOfRange (R87). -/
def Obligations.LeftmostBadRegisterIndexIsReported : Prop :=
  ∀ (s : State) (i : Instr),
    (∀ k, i.firstBadIndex = some k →
      exec i s = .next { s with fault := some ⟨.registerOutOfRange, wrap s.cfg.xlen k⟩ }) ∧
    (i.firstBadIndex = none → s.fault = none →
      ∀ t e, exec i s = .next t → t.fault = some e → e.kind ≠ .registerOutOfRange)

/-- LOAD and STORE with resolved operands and an address outside 0 .. MEM_CAP-1 raise MemoryOutOfBounds with the
address, and no cell, register or stream changes; an operand that does not resolve raises its own error first, in and
out of bounds (R163). -/
def Obligations.OutOfBoundsAddressesRaise : Prop :=
  ∀ (s : State) (src memref : Operand) (tgt a : Int),
    value s memref = .ok a → a < 0 ∨ (s.cfg.memCap : Int) ≤ a →
    (∀ r, target s tgt = .ok r →
      exec (.load memref tgt) s = .next { s with fault := some ⟨.memoryOutOfBounds, a⟩ }) ∧
    (∀ v, value s src = .ok v →
      exec (.store src memref) s = .next { s with fault := some ⟨.memoryOutOfBounds, a⟩ }) ∧
    (∀ e, target s tgt = .error e → exec (.load memref tgt) s = .next { s with fault := some e }) ∧
    (∀ e, value s src = .error e → exec (.store src memref) s = .next { s with fault := some e })

/-- READ with no item left raises InputExhausted(0) once its target is resolved, and nothing is written; a target that
does not resolve raises its own error first (R164). -/
def Obligations.ReadOnEmptyInputRaises : Prop :=
  ∀ (s : State) (tgt : Int), s.input = [] →
    (∀ r, target s tgt = .ok r → exec (.read tgt) s = .next { s with fault := some ⟨.inputExhausted, 0⟩ }) ∧
    (∀ e, target s tgt = .error e → exec (.read tgt) s = .next { s with fault := some e })

/-- Which instruction can raise what beside RegisterOutOfRange: MemoryOutOfBounds only LOAD and STORE, InputExhausted
only READ, and no instruction raises IllegalInstruction or StepAfterHalt (60_exceptions.md section 2). -/
def Obligations.OnlyTheListedInstructionsRaise : Prop :=
  ∀ (s t : State) (i : Instr) (e : FaultRecord), s.fault = none → exec i s = .next t → t.fault = some e →
    (e.kind = .memoryOutOfBounds → (∃ memref tgt, i = .load memref tgt) ∨ (∃ src memref, i = .store src memref)) ∧
    (e.kind = .inputExhausted → ∃ tgt, i = .read tgt) ∧
    e.kind ≠ .illegalInstruction ∧ e.kind ≠ .stepAfterHalt

/-- A step that raises changes no register, no cell, neither stream and not `halted`: only the fault record, and for
StepAfterHalt not even that (R92). -/
def Obligations.RaisingChangesOnlyTheFaultRecord : Prop :=
  (∀ (s t : State) (e : FaultRecord), s.fault = none → step s = .next t → t.fault = some e →
    t = { s with fault := some e }) ∧
  (∀ s : State, s.halted = true → s.fault = none → stepResult s = some (.error ⟨.stepAfterHalt, 0⟩) ∧ afterStep s = s)

/-- The order in which one step finds its one error (R168): StepAfterHalt, the halt check, IllegalInstruction,
RegisterOutOfRange for the leftmost bad operand with the target last, then MemoryOutOfBounds or InputExhausted, which
no instruction can both raise. -/
def Obligations.ErrorsAreReportedInPriorityOrder : Prop :=
  ∀ s : State, s.fault = none →
    (s.halted = true → stepResult s = some (.error ⟨.stepAfterHalt, 0⟩)) ∧
    (s.halted = false → ¬ s.IpInProgram → stepResult s = some .halted) ∧
    (∀ w, s.halted = false → s.fetch = some w →
      (legal w = false → stepResult s = some (.error ⟨.illegalInstruction, s.ip⟩)) ∧
      (∀ i, decode w = .ok i →
        (∀ k, i.firstBadIndex = some k → stepResult s = some (.error ⟨.registerOutOfRange, wrap s.cfg.xlen k⟩)) ∧
        (i.firstBadIndex = none → ∀ e, stepResult s = some (.error e) →
          (e.kind = .memoryOutOfBounds ∧ ¬ ∃ tgt, i = .read tgt) ∨ (e.kind = .inputExhausted ∧ ∃ tgt, i = .read tgt))))

/-! ### The step -/

/-- A step runs the instruction decoded from the word at the ip. -/
def Obligations.StepRunsTheDecodedInstruction : Prop :=
  ∀ (s : State) (w : InstrWord s.cfg.xlen) (i : Instr),
    s.fault = none → s.halted = false → 0 ≤ s.ip → s.cfg.program[s.ip.toNat]? = some w → decode w = .ok i →
    step s = exec i s

/-- Outside the program the step executes nothing, sets `halted`, changes nothing else and returns Halted; with an
empty program the first step halts (R82). -/
def Obligations.IpOutsideTheProgramHalts : Prop :=
  (∀ s : State, s.fault = none → s.halted = false → s.ip < 0 ∨ (s.cfg.plen : Int) ≤ s.ip →
    step s = .next { s with halted := true } ∧ stepResult s = some .halted) ∧
  (∀ (cfg : Config) (input : List Int), cfg.plen = 0 → stepResult (State.resetWith cfg input) = some .halted)

/-- Fetching an illegal word raises IllegalInstruction with its index; when every word of the program is legal no step
raises it (R165). -/
def Obligations.IllegalWordsRaiseAndValidatedProgramsDoNot : Prop :=
  (∀ (s : State) (w : InstrWord s.cfg.xlen), s.fault = none → s.halted = false → s.fetch = some w → legal w = false →
    step s = .next { s with fault := some ⟨.illegalInstruction, s.ip⟩ }) ∧
  (∀ (s t : State) (e : FaultRecord), programLegal s.cfg.program = true → s.fault = none → step s = .next t →
    t.fault = some e → e.kind ≠ .illegalInstruction)

/-- A step requested while halted and not faulted returns Error(StepAfterHalt) and changes no state, any number of
times; run, begun in a running state, never causes it (R93). -/
def Obligations.StepAfterHaltChangesNothing : Prop :=
  (∀ s : State, s.halted = true → s.fault = none →
    stepResult s = some (.error ⟨.stepAfterHalt, 0⟩) ∧ ∀ n, afterSteps n s = s) ∧
  (∀ (n : Nat) (s t : State) (e : FaultRecord), s.Running → run n s = .error e t → e.kind ≠ .stepAfterHalt)

/-- A step requested in the faulted state is not performed: the recorded error is returned again and nothing changes,
any number of times; only reset leaves that state, and it does (R94). -/
def Obligations.FaultedStateIsLeftByResetOnly : Prop :=
  ∀ (s : State) (e : FaultRecord), s.fault = some e →
    stepResult s = some (.error e) ∧ (∀ n, afterSteps n s = s) ∧
    ∀ input, (s.restart input).Running

/-- A step has exactly three outcomes: Continue, one instruction executed in full; Halted, none executed and `halted`
set; Error, nothing but the fault record changed (R81). -/
def Obligations.StepHasExactlyThreeOutcomes : Prop :=
  ∀ s : State,
    (stepResult s = some .continued ∧ ∃ i t, currentInstr s = some i ∧ exec i s = .next t ∧ afterStep s = t ∧ t.Running) ∨
    (stepResult s = some .halted ∧ afterStep s = { s with halted := true }) ∨
    (∃ e, stepResult s = some (.error e) ∧ (afterStep s = s ∨ afterStep s = { s with fault := some e }))

/-- While `halted` and `fault` are clear a step always completes, and otherwise no step is taken (R97, R199). -/
def Obligations.AStepIsTakenExactlyWhileRunning : Prop :=
  ∀ s : State, s.Running ↔ ∃ t, step s = .next t

/-- `halted` is false at reset, the halt check sets it exactly when it finds x[15] outside the program, no step clears
it, and no instruction reads or writes it (R16). -/
def Obligations.HaltedIsSetByTheHaltCheckOnly : Prop :=
  (∀ (cfg : Config) (input : List Int), (State.resetWith cfg input).halted = false) ∧
  (∀ s t : State, step s = .next t → (t.halted = true ↔ ¬ s.IpInProgram)) ∧
  (∀ s : State, s.halted = true → (afterStep s).halted = true) ∧
  (∀ (i : Instr) (s : State) (b : Bool),
    exec i { s with halted := b } = mapNext (fun t => { t with halted := b }) (exec i s))

/-! ### Invariants and whole-machine rules -/

/-- Every step keeps the invariant of machine states: widths, canonical memory inside MEM_CAP, the parameter bounds, and
the legal combinations of `halted`, `fault` and the ip. For every state, not only the reachable ones. -/
def Obligations.StepKeepsTheInvariant : Prop :=
  ∀ s t : State, s.Inv → step s = .next t → t.Inv

/-- Reset meets the invariant, for every configuration within its bounds and every input whose items fit. The configuration
of `State.reset` is the model's choice, log entry 2. -/
def Obligations.ResetMeetsTheInvariant : Prop :=
  (∀ (cfg : Config) (input : List Int), cfg.wf = true → (∀ v ∈ input, Fits cfg.xlen v) →
    (State.resetWith cfg input).Inv) ∧
  State.reset.Inv

/-- The reset values (R26): every register and cell zero, so the ip and sp are 0, `halted` false, no fault, the whole
input, an empty output. -/
def Obligations.ResetZeroesRegistersAndMemory : Prop :=
  ∀ (cfg : Config) (input : List Int),
    let s := State.resetWith cfg input
    (∀ r, s.getX r = 0) ∧ s.ip = 0 ∧ (∀ a, s.cell a = 0) ∧ s.halted = false ∧ s.fault = none ∧
      s.input = input ∧ s.output = [] ∧ s.cfg = cfg

/-- Nothing a step does changes the configuration: the program store, PLEN, XLEN and MEM_CAP (R19, R29, R46). -/
def Obligations.NoStepChangesTheConfiguration : Prop :=
  (∀ (i : Instr) (s t : State), exec i s = .next t → t.cfg = s.cfg) ∧
  (∀ (n : Nat) (s : State), (afterSteps n s).cfg = s.cfg)

/-- A register other than the ip that an instruction does not name is neither read nor written by it: changing it
changes nothing but itself. For r = 14 this says that sp has no implicit use (R15). -/
def Obligations.UnnamedRegistersPlayNoPart : Prop :=
  ∀ (i : Instr) (s : State) (r : Fin 16) (v : Int), r ≠ 15 → ¬ Mentions i r →
    exec i (s.setX r v) = mapNext (fun t => t.setX r v) (exec i s)

/-- The output is empty at reset, only grows, and no step reads it (R21). -/
def Obligations.OutputIsNeitherReadNorShortened : Prop :=
  (∀ (cfg : Config) (input : List Int), (State.resetWith cfg input).output = []) ∧
  (∀ s t : State, step s = .next t → ∃ emitted, t.output = s.output ++ emitted ∧ emitted.length ≤ 1) ∧
  (∀ (s : State) (o : List Int),
    step { s with output := o ++ s.output } = mapNext (fun t => { t with output := o ++ t.output }) (step s))

/-- Input the host has yet to supply plays no part in a step that does not exhaust the input: with further items behind
the ones offered, the step gives the same outcome with those items behind the remaining ones (R122). -/
def Obligations.LaterInputPlaysNoPartInAStep : Prop :=
  ∀ (s t : State) (items : List Int), step s = .next t → (∀ e, t.fault = some e → e.kind ≠ .inputExhausted) →
    step (s.supplyInput items) = .next (t.supplyInput items)

/-- Over any number of step requests from any state, the items taken at the input port are, in order, the consumed
prefix of the input, and the items at the output port are, in order, what the output has grown by (R123, R146). -/
def Obligations.PortTransactionsAccountForTheStreams : Prop :=
  ∀ (n : Nat) (s : State),
    s.input = (transactionTrace n s).filterMap (·.input) ++ (afterSteps n s).input ∧
    (afterSteps n s).output = s.output ++ (transactionTrace n s).filterMap (·.output)

/-- The data port carries every access and only accesses in bounds: a LOAD whose operands resolve to a valid address
reads there and a STORE writes there; a read returns the cell and changes nothing, a write leaves its value in its cell
and every other cell alone, and without a transaction memory is unchanged (R143). -/
def Obligations.DataPortCarriesEveryAccess : Prop :=
  ∀ s : State, s.mem.wf = true →
    (∀ a v, (transactions s).data = some (.read a v) →
      s.ValidAddress a ∧ v = s.cell a ∧ SameMemory s (afterStep s)) ∧
    (∀ a v, (transactions s).data = some (.write a v) →
      s.ValidAddress a ∧ (afterStep s).cell a = v ∧ SameMemoryBut a s (afterStep s)) ∧
    ((transactions s).data = none → SameMemory s (afterStep s)) ∧
    (∀ memref tgt a r, currentInstr s = some (.load memref tgt) → value s memref = .ok a → target s tgt = .ok r →
      s.ValidAddress a → (transactions s).data = some (.read a (s.cell a))) ∧
    (∀ src memref v a, currentInstr s = some (.store src memref) → value s src = .ok v → value s memref = .ok a →
      s.ValidAddress a → (transactions s).data = some (.write a v))

/-- The binary machine is the abstract one: on the encoded program every step request, and so every number of them,
gives what the abstract step gives on the Instruction values (R2). -/
def Obligations.BinaryStepRefinesTheAbstractStep : Prop :=
  ∀ (s : State) (p : List Instr), 1 ≤ s.cfg.xlen → (∀ i ∈ p, i.wf s.cfg.xlen = true) →
    s.cfg.program = programWords s.cfg.xlen p → step s = stepA p s

/-- At the abstract level no step raises IllegalInstruction, whatever the program (R167). -/
def Obligations.AbstractStepNeverMeetsAnIllegalInstruction : Prop :=
  ∀ (p : List Instr) (s t : State) (e : FaultRecord), s.fault = none → stepA p s = .next t → t.fault = some e →
    e.kind ≠ .illegalInstruction

/-- run stops at the first Halted or Error: ended by Halted the state is the normal end, ended by an error the fault
record holds that error, and a run cut short is still running; the state is the one that many step requests lead to
(R95, R97). -/
def Obligations.RunEndsHaltedOrFaulted : Prop :=
  ∀ (n : Nat) (s : State), s.Running →
    (∀ t, run n s = .halted t → t.EndedNormally) ∧
    (∀ e t, run n s = .error e t → t.fault = some e ∧ t.halted = false) ∧
    (∀ t, run n s = .running t → t.Running) ∧
    (run n s).state = afterSteps n s

/-- The cause codes, and what the control port shows: after an error the code and info of the error just surfaced,
StepAfterHalt included although it is not recorded; with nothing recorded, 0 (R141, R161). That the info output is 0
with nothing recorded is the model's choice, log entry 11. -/
def Obligations.ControlPortShowsTheCause : Prop :=
  causeCode .registerOutOfRange = 1 ∧ causeCode .memoryOutOfBounds = 2 ∧ causeCode .inputExhausted = 3 ∧
  causeCode .illegalInstruction = 4 ∧ causeCode .stepAfterHalt = 5 ∧
  (∀ s : State, s.fault = none → statusOut s = ⟨s.halted, false, 0, 0⟩) ∧
  (∀ (s : State) (e : FaultRecord), s.fault = some e → statusOut s = ⟨s.halted, true, causeCode e.kind, e.info⟩) ∧
  (∀ (s : State) (e : FaultRecord), stepResult s = some (.error e) →
    ∃ f, controlOut s = some (2, ⟨s.halted, f, causeCode e.kind, e.info⟩) ∧ (f = false ↔ e.kind = .stepAfterHalt ∧ s.fault = none))

/-! ### Assembly text -/

/-- Example lines of the spec assemble to their instructions; blank and comment lines are none; an unknown mnemonic and
an out-of-range register token are rejected (R68 to R76). The exact blanks accepted, and which of the two errors a
rejected line gives, are the model's choice, log entry 8 (R73 names the two errors and assigns neither). -/
def Obligations.ExampleLinesAssemble : Prop :=
  assembleLine 32 "CP 1, r2".toList = .ok (some (.cp (.lit 1) 2)) ∧
  assembleLine 32 "STORE 99, 3   # a comment".toList = .ok (some (.store (.lit 99) (.lit 3))) ∧
  assembleLine 32 "JUMP pos, r1, 3".toList = .ok (some (.jumpPos (.reg 1) (.lit 3))) ∧
  assembleLine 32 "  # only a comment".toList = .ok none ∧
  assembleLine 32 "".toList = .ok none ∧
  assembleLine 32 "HALT".toList = .error .unknownOpcode ∧
  assembleLine 32 "cp 1, r2".toList = .error .unknownOpcode ∧
  assembleLine 32 "READ r16".toList = .error .malformedInstruction ∧
  assembleLine 32 "JUMP always, r1, 3".toList = .error .malformedInstruction ∧
  assembleLine 32 "READ 3".toList = .error .malformedInstruction ∧
  encode 32 (.jumpPos (.reg 1) (.lit 3)) = 0x00000003000000010059

/-- The text of a well-formed instruction assembles to that instruction (R70, R76). The layout of the text (blanks, no
leading zeros) is the model's choice, log entry 8. -/
def Obligations.AssemblingTheTextGivesTheInstruction : Prop :=
  ∀ (xlen : Nat) (i : Instr), i.wf xlen = true → i.indicesInRange = true → assembleLine xlen (instrText i) = .ok (some i)

/-- A literal that does not fit XLEN bits is rejected as MalformedInstruction, in every instruction and every operand
position, and not wrapped (R74). The layout of the text is the model's choice, log entry 8. -/
def Obligations.LiteralsThatDoNotFitAreRejected : Prop :=
  ∀ (xlen : Nat) (i : Instr) (v : Int), .lit v ∈ i.sources → ¬ Fits xlen v →
    assembleLine xlen (instrText i) = .error .malformedInstruction

/-- A register token is r followed by the decimal index 0 to 15 and nothing else (R69). That leading zeros are refused
is the model's choice, log entry 8. -/
def Obligations.RegisterTokensAreR0ToR15 : Prop :=
  ∀ (l : List Char) (n : Nat), registerToken l = some n ↔ n ≤ 15 ∧ l = 'r' :: natText n

/-- Blank and comment-only lines are not counted: taking one out changes no instruction and no index (R71). -/
def Obligations.BlankLinesAreNotCounted : Prop :=
  ∀ (xlen : Nat) (before after : List (List Char)) (l : List Char), assembleLine xlen l = .ok none →
    assembleLines xlen (before ++ l :: after) = assembleLines xlen (before ++ after)
end

