-- ==== Sys2Proof/Laws/Assembly.lean ====
section
/-!
SUPPORT. Reading back what was written: decimal numbers, tokens, the argument list and one line of assembly text.
-/

namespace Sys2Proof.Assembly
theorem digit?_digitChar {n : Nat} (h : n < 10) : digit? (Nat.digitChar n) = some n := by
  interval_cases n <;> decide

theorem digitsFrom_append (acc : Nat) (a b : List Char) : digitsFrom acc (a ++ b) = (digitsFrom acc a).bind fun n => digitsFrom n b := by
  induction a generalizing acc with
  | nil => rfl
  | cons c a ih => simp only [List.cons_append, digitsFrom]; cases digit? c <;> simp [ih]

theorem natText_of_lt {n : Nat} (h : n < 10) : natText n = [Nat.digitChar n] := by
  unfold natText; exact Nat.toDigits_of_lt_base h

theorem natText_of_ge {n : Nat} (h : 10 ≤ n) : natText n = natText (n / 10) ++ [Nat.digitChar (n % 10)] := by
  unfold natText; exact Nat.toDigits_of_base_le (by decide) h

theorem digitsFrom_natText (n : Nat) : digitsFrom 0 (natText n) = some n := by
  induction n using Nat.strongRecOn with
  | _ n ih =>
  by_cases h : n < 10
  · rw [natText_of_lt h]; simp [digitsFrom, digit?_digitChar h]
  · rw [natText_of_ge (by omega), digitsFrom_append, ih _ (by omega)]
    simp [digitsFrom, digit?_digitChar (Nat.mod_lt n (by decide : 0 < 10))]; omega

theorem natText_head (n : Nat) (h : 0 < n) : ∃ c l, natText n = c :: l ∧ c ≠ '0' := by
  induction n using Nat.strongRecOn with
  | _ n ih =>
  by_cases h1 : n < 10
  · rw [natText_of_lt h1]; refine ⟨_, _, rfl, ?_⟩; interval_cases n <;> decide
  · obtain ⟨c, l, hc, h2⟩ := ih (n/10) (by omega) (by omega)
    rw [natText_of_ge (by omega), hc]; exact ⟨c, _, rfl, h2⟩

theorem natToken_natText (n : Nat) : natToken (natText n) = some n := by
  by_cases h : n = 0
  · subst h; decide
  · obtain ⟨c, l, hc, h2⟩ := natText_head n (by omega)
    have := digitsFrom_natText n
    rw [hc] at this ⊢
    unfold natToken
    split
    · simp_all
    · simp_all
    · simp_all
    · exact this

theorem digitChar_of_digit? {c d} (h : digit? c = some d) : d < 10 ∧ Nat.digitChar d = c := by
  unfold digit? at h
  split at h
  · next hc =>
    cases h
    have h1 : 48 ≤ c.toNat := by have := hc.1; exact this
    have h2 : c.toNat ≤ 57 := by have := hc.2; exact this
    refine ⟨by simp; omega, ?_⟩
    have : c = Char.ofNat c.toNat := by simp
    rw [this]
    generalize c.toNat = m at *
    interval_cases m <;> decide
  · cases h

theorem natText_of_digitsFrom {l acc n} (ha : 0 < acc) (h : digitsFrom acc l = some n) : natText n = natText acc ++ l := by
  induction l generalizing acc with
  | nil => simp [digitsFrom] at h; simp [h]
  | cons c l ih =>
    simp only [digitsFrom] at h
    split at h
    · cases h
    · next d hd =>
      obtain ⟨h1, h2⟩ := digitChar_of_digit? hd
      rw [ih (by omega) h, natText_of_ge (n := 10 * acc + d) (by omega)]
      rw [show (10 * acc + d) / 10 = acc by omega, show (10 * acc + d) % 10 = d by omega, h2]; simp

theorem eq_natText_of_natToken {l n} (h : natToken l = some n) : l = natText n := by
  unfold natToken at h
  split at h
  · cases h
  · cases h; decide
  · cases h
  · next h0 h1 h2 =>
    cases l with
    | nil => exact (h0 rfl).elim
    | cons c l =>
      simp only [digitsFrom] at h
      split at h
      · cases h
      · next d hd =>
        obtain ⟨h3, h4⟩ := digitChar_of_digit? hd
        have : d ≠ 0 := by rintro rfl; exact h2 l (by rw [← h4]; rfl)
        rw [natText_of_digitsFrom (by omega) h, natText_of_lt (by omega)]; simp [h4]

/-- No character of the text ends a token or a line: no space, tab, comma or `#`. -/
def Plain (l : List Char) : Prop := ∀ c ∈ l, c ≠ ' ' ∧ c ≠ ',' ∧ c ≠ '#' ∧ c ≠ '\t'

theorem plain_natText (n : Nat) : Plain (natText n) := by
  induction n using Nat.strongRecOn with
  | _ n ih =>
  have hd : ∀ m, m < 10 → Plain [Nat.digitChar m] := by intro m hm; interval_cases m <;> simp [Plain, Nat.digitChar]
  by_cases h1 : n < 10
  · rw [natText_of_lt h1]; exact hd n h1
  · rw [natText_of_ge (by omega)]
    intro c hc
    rcases List.mem_append.1 hc with hc | hc
    · exact ih _ (by omega) c hc
    · exact hd _ (Nat.mod_lt _ (by decide)) c hc

theorem Plain.cons {c l} (hc : Plain [c]) (h : Plain l) : Plain (c :: l) := by
  intro d hd; rcases List.mem_cons.1 hd with rfl | hd
  · exact hc d (by simp)
  · exact h d hd

theorem plain_intText (v : Int) : Plain (intText v) := by
  cases v with
  | ofNat n => exact plain_natText n
  | negSucc n => exact Plain.cons (by simp [Plain]) (plain_natText _)

theorem plain_operandText (o) : Plain (operandText o) := by
  cases o with
  | lit v => exact plain_intText v
  | reg v => exact Plain.cons (by simp [Plain]) (plain_intText v)

theorem natText_ne_nil (n) : natText n ≠ [] := by
  intro h; have := digitsFrom_natText n; have h2 := natToken_natText n; rw [h] at h2; cases h2

theorem natText_first (n : Nat) : ∀ l, natText n ≠ '-' :: l ∧ natText n ≠ 'r' :: l := by
  intro l
  constructor <;> (intro h; have := digitsFrom_natText n; rw [h] at this; simp [digitsFrom, digit?] at this)

theorem literalToken_intText {xlen v} : literalToken xlen (intText v) = if Fits xlen v then some v else none := by
  cases v with
  | ofNat n =>
    unfold literalToken
    simp only [intText]
    split
    rotate_left
    · simp [natToken_natText]
    · next h => exact absurd h (natText_first n _).1
  | negSucc n => 
    have : Int.negSucc n = -1 + -(n : Int) := by omega
    simp [literalToken, intText, natToken_natText, this]

theorem registerToken_intText (v) : registerToken (intText v) = none := by
  unfold registerToken
  split
  · next h =>
    cases v with
    | ofNat n => exact absurd h (natText_first n _).2
    | negSucc n => simp [intText] at h
  · rfl

theorem registerToken_reg {i : Int} (h : InRange i) : registerToken ('r' :: intText i) = some i.toNat := by
  obtain ⟨h1, h2⟩ := h
  obtain ⟨n, rfl⟩ := Int.eq_ofNat_of_zero_le h1
  have h3 : n ≤ 15 := by omega
  have : intText (n : Int) = natText n := rfl
  simp [registerToken, natToken_natText, this, h3]

theorem operandToken_operandText {xlen o} (h : o.wf xlen = true) (h2 : ∀ k, o.index? = some k → InRange k) : operandToken xlen (operandText o) = some o := by
  cases o with
  | lit v =>
    simp only [Operand.wf, decide_eq_true_eq] at h
    simp [operandToken, operandText, registerToken_intText, literalToken_intText, h]
  | reg i =>
    have := h2 i rfl
    have h3 := this.1
    simp [operandToken, operandText, registerToken_reg this, h3]

theorem targetToken_targetText {t} (h : InRange t) : targetToken (targetText t) = some t := by
  have h3 := h.1
  simp [targetToken, targetText, registerToken_reg h, h3]

theorem splitAt_eq_singleton {l : List Char} (h : ∀ c ∈ l, c ≠ ',') : splitAt ',' l = [l] := by
  induction l with
  | nil => rfl
  | cons c l ih =>
    simp [splitAt, h c, ih (fun d hd => h d (by simp [hd]))]

theorem argsOf_intersperse (ts : List (List Char)) (hne : ts ≠ []) (h : ∀ t ∈ ts, Plain t) : argsOf ((ts.intersperse [',', ' ']).flatten) = some ts := by
  have key : ∀ t ts, Plain t → (∀ t ∈ ts, Plain t) → ∀ p : List Char, (∀ c ∈ p, c ≠ ',') → splitAt ',' (p ++ ((t :: ts).intersperse [',', ' ']).flatten) = (p ++ t) :: ts.map (' ' :: ·) := by
    intro t ts
    induction ts generalizing t with
    | nil => intro ht _ p hp; simp; apply splitAt_eq_singleton; intro c hc; rcases List.mem_append.1 hc with hc | hc; exact hp c hc; exact (ht c hc).2.1
    | cons u ts ih =>
      intro ht hts p hp
      have e : ((t :: u :: ts).intersperse [',', ' ']).flatten = t ++ ',' :: ([' '] ++ ((u :: ts).intersperse [',', ' ']).flatten) := by simp [List.intersperse]
      rw [e, ← List.append_assoc]
      have : ∀ (q : List Char) r, (∀ c ∈ q, c ≠ ',') → splitAt ',' (q ++ ',' :: r) = q :: splitAt ',' r := by
        intro q r hq
        induction q with
        | nil => simp [splitAt]
        | cons c l ih => simp [splitAt, hq c, ih (fun d hd => hq d (by simp [hd]))]
      rw [this _ _ (by intro c hc; rcases List.mem_append.1 hc with hc | hc; exact hp c hc; exact (ht c hc).2.1)]
      rw [ih u (hts u (by simp)) (fun x hx => hts x (by simp [hx])) [' '] (by simp)]
      simp
  cases ts with
  | nil => exact absurd rfl hne
  | cons t ts =>
    have := key t ts (h t (by simp)) (fun x hx => h x (by simp [hx])) [] (by simp)
    simp only [List.nil_append] at this
    unfold argsOf
    rw [this]
    have : (ts.map (' ' :: ·)).mapM dropSpace = some ts := by
      clear * -
      induction ts with
      | nil => rfl
      | cons t ts ih => simp [dropSpace, ih] 
    simp [this]

theorem stripLine_eq_self {l : List Char} (h : ∀ c ∈ l, c ≠ '#') (hl : ∀ c, l.getLast? = some c → isBlank c = false) : stripLine l = l := by
  unfold stripLine
  have : l.takeWhile (· != '#') = l := by
    rw [List.takeWhile_eq_self_iff]; simpa using h
  rw [this]
  have h2 : l.reverse.dropWhile isBlank = l.reverse := by
    cases hr : l.reverse with
    | nil => rfl
    | cons c r =>
      have : l.getLast? = some c := by rw [List.getLast?_eq_head?_reverse, hr]; rfl
      simp [List.dropWhile, hl c this]
  rw [h2, List.reverse_reverse]

theorem assembleLine_lineText {xlen} (m : Mnemonic) (ts : List (List Char)) (hne : ts ≠ []) (h : ∀ t ∈ ts, Plain t ∧ t ≠ []) :
   assembleLine xlen (lineText m ts) = match instrOf xlen m ts with | some i => .ok (some i) | none => .error .malformedInstruction := by
  have hm : ∀ c ∈ m.text, c ≠ ' ' ∧ c ≠ '#' := by cases m <;> simp [Mnemonic.text]
  have hmn : m.text ≠ [] := by cases m <;> simp [Mnemonic.text]
  have hin : ∀ ts : List (List Char), (∀ t ∈ ts, Plain t ∧ t ≠ []) → ∀ c ∈ (ts.intersperse [',', ' ']).flatten, c ≠ '#' := by
    intro ts h
    induction ts with
    | nil => simp
    | cons t ts ih =>
      cases ts with
      | nil => intro c hc; simp at hc; exact ((h t (by simp)).1 c hc).2.2.1
      | cons u ts =>
        intro c hc
        have e : ((t :: u :: ts).intersperse [',', ' ']).flatten = t ++ ',' :: ([' '] ++ ((u :: ts).intersperse [',', ' ']).flatten) := by simp [List.intersperse]
        rw [e] at hc
        simp only [List.mem_append, List.mem_cons, List.not_mem_nil, or_false] at hc
        rcases hc with hc | rfl | rfl | hc
        · exact ((h t (by simp)).1 c hc).2.2.1
        · simp
        · simp
        · exact ih (fun x hx => h x (by simp [hx])) c hc
  have hlast : ∀ ts : List (List Char), ts ≠ [] → (∀ t ∈ ts, Plain t ∧ t ≠ []) → ∃ p c, (ts.intersperse [',', ' ']).flatten = p ++ [c] ∧ isBlank c = false := by
    intro ts hne h
    induction ts with
    | nil => exact absurd rfl hne
    | cons t ts ih =>
      cases ts with
      | nil =>
        obtain ⟨h1, h2⟩ := h t (by simp)
        obtain ⟨p, c, rfl⟩ : ∃ p c, t = p ++ [c] := ⟨_, _, (List.dropLast_append_getLast h2).symm⟩
        refine ⟨p, c, by simp, ?_⟩
        have := h1 c (by simp)
        simp [isBlank, this]
      | cons u ts =>
        obtain ⟨p, c, e1, e2⟩ := ih (by simp) (fun x hx => h x (by simp [hx]))
        have e : ((t :: u :: ts).intersperse [',', ' ']).flatten = t ++ ',' :: ([' '] ++ ((u :: ts).intersperse [',', ' ']).flatten) := by simp [List.intersperse]
        rw [e, e1]
        exact ⟨t ++ ',' :: ' ' :: p, c, by simp, e2⟩
  have hs : stripLine (lineText m ts) = lineText m ts := by
    apply stripLine_eq_self
    · intro c hc
      simp only [lineText, List.mem_append, List.mem_cons] at hc
      rcases hc with hc | rfl | hc
      · exact (hm c hc).2
      · simp
      · exact hin ts h c hc
    · intro c hc
      obtain ⟨p, d, e1, e2⟩ := hlast ts hne h
      rw [lineText, e1] at hc
      have : m.text ++ ' ' :: (p ++ [d]) = (m.text ++ ' ' :: p) ++ [d] := by simp
      rw [this, List.getLast?_concat] at hc
      cases hc; exact e2
  have htw : (lineText m ts).takeWhile (· != ' ') = m.text := by
    rw [lineText, List.takeWhile_append_of_pos (by intro c hc; simp [(hm c hc).1])]; simp
  have hdw : (lineText m ts).dropWhile (· != ' ') = ' ' :: (ts.intersperse [',', ' ']).flatten := by
    rw [lineText, List.dropWhile_append_of_pos (by intro c hc; simp [(hm c hc).1])]; simp
  have hmm : mnemonic? m.text = some m := by cases m <;> rfl
  have hem : (lineText m ts).isEmpty = false := by simp [lineText, hmn]
  simp only [assembleLine, hs, hem, htw, hdw, hmm, List.drop_succ_cons, List.drop_zero, Bool.false_eq_true, if_false]
  rw [argsOf_intersperse ts hne (fun t ht => (h t ht).1)]
  rfl

theorem operandText_token (o) : Plain (operandText o) ∧ operandText o ≠ [] := by
  refine ⟨plain_operandText o, ?_⟩
  cases o with
  | lit v => cases v <;> simp [operandText, intText, natText_ne_nil]
  | reg v => simp [operandText]

theorem targetText_token (o) : Plain (targetText o) ∧ targetText o ≠ [] := ⟨Plain.cons (by simp [Plain]) (plain_intText o), by simp [targetText]⟩

theorem conditionText_token (c) : Plain (conditionText c) ∧ conditionText c ≠ [] := by cases c <;> simp [conditionText, Plain]

theorem conditionToken_conditionText (c) : conditionToken (conditionText c) = some c := by cases c <;> rfl

end Sys2Proof.Assembly
end

