-- ==== Sys2Proof/Laws/Decode.lean ====
section
/-!
SUPPORT. Packing and unpacking the fields of an instruction word, and the operand fields.
-/

namespace Sys2Proof

@[simp] theorem fieldsOf_pack {xlen : Nat} (f : Fields xlen) : fieldsOf (pack f) = f := by
  obtain ⟨op, cond, am, bm, tgt, a, b⟩ := f
  simp only [fieldsOf, pack, Fields.mk.injEq]
  refine ⟨?_, ?_, ?_, ?_, ?_, ?_, ?_⟩ <;>
    (apply BitVec.eq_of_getLsbD_eq
     intro i hi
     simp only [BitVec.getLsbD_extractLsb', BitVec.getLsbD_cast, BitVec.getLsbD_append, hi, decide_true, Bool.true_and])
  · simp [hi]
  · simp [show ¬ (4 + i < 4) by omega, hi]
  · simp [show ¬ (6 + i < 4) by omega, show ¬ (6 + i - 4 < 2) by omega, show 6 + i - 4 - 2 = i by omega, hi]
  · simp [show ¬ (7 + i < 4) by omega, show ¬ (7 + i - 4 < 2) by omega, show ¬ (7 + i - 4 - 2 < 1) by omega,
      show 7 + i - 4 - 2 - 1 = i by omega, hi]
  · simp [show ¬ (8 + i < 4) by omega, show ¬ (8 + i - 4 < 2) by omega, show ¬ (8 + i - 4 - 2 < 1) by omega,
      show ¬ (8 + i - 4 - 2 - 1 < 1) by omega, show 8 + i - 4 - 2 - 1 - 1 = i by omega, hi]
  · simp [show ¬ (16 + i < 4) by omega, show ¬ (16 + i - 4 < 2) by omega, show ¬ (16 + i - 4 - 2 < 1) by omega,
      show ¬ (16 + i - 4 - 2 - 1 < 1) by omega, show ¬ (16 + i - 4 - 2 - 1 - 1 < 8) by omega,
      show 16 + i - 4 - 2 - 1 - 1 - 8 = i by omega, hi]
  · simp [show ¬ (xlen + 16 + i < 4) by omega, show ¬ (xlen + 16 + i - 4 < 2) by omega,
      show ¬ (xlen + 16 + i - 4 - 2 < 1) by omega, show ¬ (xlen + 16 + i - 4 - 2 - 1 < 1) by omega,
      show ¬ (xlen + 16 + i - 4 - 2 - 1 - 1 < 8) by omega, show ¬ (xlen + 16 + i - 4 - 2 - 1 - 1 - 8 < xlen) by omega,
      show xlen + 16 + i - 4 - 2 - 1 - 1 - 8 - xlen = i by omega]

theorem pack_fieldsOf {xlen : Nat} (w : InstrWord xlen) : pack (fieldsOf w) = w := by
  apply BitVec.eq_of_getLsbD_eq
  intro i hi
  simp only [pack, fieldsOf, BitVec.getLsbD_cast, BitVec.getLsbD_append, BitVec.getLsbD_extractLsb']
  by_cases h1 : i < 4
  · simp [h1]
  by_cases h2 : i - 4 < 2
  · simp [h1, h2]; congr 1; omega
  by_cases h3 : i - 4 - 2 < 1
  · obtain rfl : i = 6 := by omega
    simp
  by_cases h4 : i - 4 - 2 - 1 < 1
  · obtain rfl : i = 7 := by omega
    simp
  by_cases h5 : i - 4 - 2 - 1 - 1 < 8
  · simp [h1, h2, h3, h4, h5]; congr 1; omega
  by_cases h6 : i - 4 - 2 - 1 - 1 - 8 < xlen
  · simp [h1, h2, h3, h4, h5, h6]; congr 1; omega
  have h7 : i - 4 - 2 - 1 - 1 - 8 - xlen < xlen := by omega
  simp [h1, h2, h3, h4, h5, h6, h7]; congr 1; omega

/-- Two words are equal when their fields are. -/
theorem fieldsOf_injective {xlen : Nat} {w w' : InstrWord xlen} (h : fieldsOf w = fieldsOf w') : w = w' := by
  rw [← pack_fieldsOf w, h, pack_fieldsOf]

/-- The AND of two packed words is the packed AND of their fields. -/
theorem pack_and {xlen : Nat} (f g : Fields xlen) :
    pack f &&& pack g = pack ⟨f.op &&& g.op, f.cond &&& g.cond, f.am &&& g.am, f.bm &&& g.bm, f.tgt &&& g.tgt,
      f.a &&& g.a, f.b &&& g.b⟩ := by
  apply BitVec.eq_of_getLsbD_eq
  intro i _
  simp only [pack, BitVec.getLsbD_and, BitVec.getLsbD_cast, BitVec.getLsbD_append]
  split_ifs <;> rfl

/-! ### Serialised values (R38) -/

@[simp] theorem length_serialise (n v : Nat) : (serialise n v).length = n := by
  induction n generalizing v <;> simp [serialise, *]

theorem getElem?_serialise {n v j : Nat} (h : j < n) : (serialise n v)[j]? = some (BitVec.ofNat 8 (v / 256 ^ j)) := by
  induction n generalizing v j with
  | zero => omega
  | succ n ih =>
    cases j with
    | zero => simp [serialise]
    | succ j =>
      simp only [serialise, List.getElem?_cons_succ]
      rw [ih (by omega), Nat.div_div_eq_div_mul, pow_succ']

theorem deserialise_serialise {n v : Nat} (h : v < 256 ^ n) : deserialise (serialise n v) = v := by
  induction n generalizing v with
  | zero =>
    simp only [pow_zero, Nat.lt_one_iff] at h
    simp [serialise, deserialise, h]
  | succ n ih =>
    have hd : v / 256 < 256 ^ n := by
      rw [Nat.div_lt_iff_lt_mul (by decide)]
      rwa [pow_succ] at h
    simp only [serialise, deserialise, ih hd, BitVec.toNat_ofNat]
    omega

/-- The bytes of a value of n bits are enough to hold it. -/
theorem lt_bytes {n v : Nat} (h : v < 2 ^ n) : v < 256 ^ ((n + 7) / 8) := by
  refine lt_of_lt_of_le h ?_
  rw [show 256 = 2 ^ 8 by rfl, ← pow_mul]
  exact Nat.pow_le_pow_right (by decide) (by omega)

/-! ### The decoder's checks -/

theorem strict_eq_ok {c u : Bool} {i j : Instr} : strict c u i = .ok j ↔ c = true ∧ u = true ∧ j = i := by
  cases c <;> cases u <;> simp [strict, eq_comm]

theorem legal_eq_true {xlen : Nat} {w : InstrWord xlen} : legal w = true ↔ ∃ i, decode w = .ok i := by
  unfold legal
  cases decode w <;> simp

theorem legal_eq_false {xlen : Nat} {w : InstrWord xlen} : legal w = false ↔ ∃ e, decode w = .error e := by
  unfold legal
  cases decode w <;> simp

/-- A row is selected when the fixed header fields agree and the fixed-zero fields are zero. -/
theorem selects_rowOf {xlen : Nat} (w : InstrWord xlen) (op : BitVec 4) (cond : BitVec 2) (c1 c2 c3 c4 c5 : Bool) :
    (rowOf xlen op cond c1 c2 c3 c4 c5).selects w = true ↔
      (fieldsOf w).op = op ∧ (fieldsOf w).cond = cond ∧ (c1 = true → (fieldsOf w).am = 0) ∧
        (c2 = true → (fieldsOf w).bm = 0) ∧ (c3 = true → (fieldsOf w).tgt = 0) ∧ (c4 = true → (fieldsOf w).a = 0) ∧
        (c5 = true → (fieldsOf w).b = 0) := by
  have inj : ∀ f g : Fields xlen, pack f = pack g ↔ f = g := fun f g =>
    ⟨fun h => by simpa using congrArg fieldsOf h, fun h => h ▸ rfl⟩
  have e1 : ∀ x : BitVec 1, x &&& 1#1 = x := by decide
  have e8 : ∀ x : BitVec 8, x &&& 255#8 = x := fun x => BitVec.and_allOnes
  conv_lhs => rw [← pack_fieldsOf w]
  simp only [OpcodeRow.selects, rowOf, pack_and, beq_iff_eq, inj, blankFields, Fields.mk.injEq, BitVec.and_allOnes]
  cases c1 <;> cases c2 <;> cases c3 <;> cases c4 <;> cases c5 <;> simp [e1, e8]

end Sys2Proof
end

