-- ==== Sys2Proof/Laws/State.lean ====
section
/-!
SUPPORT. One lemma per field per update of the state, so that no later proof unfolds a record update.
-/

namespace Sys2Proof.Machine

variable (s : State)

/-! ### Register writes -/

@[simp] theorem State.getX_setX (i j : Fin 16) (v : Int) :
    (s.setX i v).getX j = if j = i then v else s.getX j := by
  simp only [State.getX, State.setX, Fin.getElem_fin, Vector.getElem_set]
  by_cases h : j = i
  · simp [h]
  · have : ¬ i.val = j.val := fun e => h (Fin.ext e.symm)
    simp [h, this]

@[simp] theorem State.setX_cfg (i : Fin 16) (v : Int) : (s.setX i v).cfg = s.cfg := rfl
@[simp] theorem State.setX_mem (i : Fin 16) (v : Int) : (s.setX i v).mem = s.mem := rfl
@[simp] theorem State.setX_halted (i : Fin 16) (v : Int) : (s.setX i v).halted = s.halted := rfl
@[simp] theorem State.setX_fault (i : Fin 16) (v : Int) : (s.setX i v).fault = s.fault := rfl
@[simp] theorem State.setX_input (i : Fin 16) (v : Int) : (s.setX i v).input = s.input := rfl
@[simp] theorem State.setX_output (i : Fin 16) (v : Int) : (s.setX i v).output = s.output := rfl
@[simp] theorem State.setX_cell (i : Fin 16) (v a : Int) : (s.setX i v).cell a = s.cell a := rfl

@[simp] theorem State.ip_setX (i : Fin 16) (v : Int) : (s.setX i v).ip = if i = 15 then v else s.ip := by
  simp only [State.ip, State.getX_setX, eq_comm]

/-! ### The ip -/

@[simp] theorem State.setIp_ip (v : Int) : (s.setIp v).ip = v := by simp [State.setIp]
@[simp] theorem State.setIp_getX (v : Int) (j : Fin 16) : (s.setIp v).getX j = if j = 15 then v else s.getX j := by
  simp [State.setIp]
@[simp] theorem State.setIp_cfg (v : Int) : (s.setIp v).cfg = s.cfg := rfl
@[simp] theorem State.setIp_mem (v : Int) : (s.setIp v).mem = s.mem := rfl
@[simp] theorem State.setIp_halted (v : Int) : (s.setIp v).halted = s.halted := rfl
@[simp] theorem State.setIp_fault (v : Int) : (s.setIp v).fault = s.fault := rfl
@[simp] theorem State.setIp_input (v : Int) : (s.setIp v).input = s.input := rfl
@[simp] theorem State.setIp_output (v : Int) : (s.setIp v).output = s.output := rfl
@[simp] theorem State.setIp_cell (v a : Int) : (s.setIp v).cell a = s.cell a := rfl

/-! ### The advance (R89) -/

@[simp] theorem State.advance_ip : s.advance.ip = wrap s.cfg.xlen (s.ip + 1) := by simp [State.advance]
@[simp] theorem State.advance_getX (j : Fin 16) :
    s.advance.getX j = if j = 15 then wrap s.cfg.xlen (s.ip + 1) else s.getX j := by simp [State.advance]
@[simp] theorem State.advance_cfg : s.advance.cfg = s.cfg := rfl
@[simp] theorem State.advance_mem : s.advance.mem = s.mem := rfl
@[simp] theorem State.advance_halted : s.advance.halted = s.halted := rfl
@[simp] theorem State.advance_fault : s.advance.fault = s.fault := rfl
@[simp] theorem State.advance_input : s.advance.input = s.input := rfl
@[simp] theorem State.advance_output : s.advance.output = s.output := rfl
@[simp] theorem State.advance_cell (a : Int) : s.advance.cell a = s.cell a := rfl

/-! ### Raising an error (R92) -/

@[simp] theorem State.raise_x (e : FaultRecord) : (s.raise e).x = s.x := rfl
@[simp] theorem State.raise_getX (e : FaultRecord) (j : Fin 16) : (s.raise e).getX j = s.getX j := rfl
@[simp] theorem State.raise_ip (e : FaultRecord) : (s.raise e).ip = s.ip := rfl
@[simp] theorem State.raise_cfg (e : FaultRecord) : (s.raise e).cfg = s.cfg := rfl
@[simp] theorem State.raise_mem (e : FaultRecord) : (s.raise e).mem = s.mem := rfl
@[simp] theorem State.raise_halted (e : FaultRecord) : (s.raise e).halted = s.halted := rfl
@[simp] theorem State.raise_fault (e : FaultRecord) : (s.raise e).fault = some e := rfl
@[simp] theorem State.raise_input (e : FaultRecord) : (s.raise e).input = s.input := rfl
@[simp] theorem State.raise_output (e : FaultRecord) : (s.raise e).output = s.output := rfl
@[simp] theorem State.raise_cell (e : FaultRecord) (a : Int) : (s.raise e).cell a = s.cell a := rfl

/-! ### Cells, streams, halt -/

@[simp] theorem State.setCell_cfg (a v : Int) : (s.setCell a v).cfg = s.cfg := rfl
@[simp] theorem State.setCell_x (a v : Int) : (s.setCell a v).x = s.x := rfl
@[simp] theorem State.setCell_getX (a v : Int) (j : Fin 16) : (s.setCell a v).getX j = s.getX j := rfl
@[simp] theorem State.setCell_ip (a v : Int) : (s.setCell a v).ip = s.ip := rfl
@[simp] theorem State.setCell_mem (a v : Int) : (s.setCell a v).mem = s.mem.write a.toNat v := rfl
@[simp] theorem State.setCell_halted (a v : Int) : (s.setCell a v).halted = s.halted := rfl
@[simp] theorem State.setCell_fault (a v : Int) : (s.setCell a v).fault = s.fault := rfl
@[simp] theorem State.setCell_input (a v : Int) : (s.setCell a v).input = s.input := rfl
@[simp] theorem State.setCell_output (a v : Int) : (s.setCell a v).output = s.output := rfl

@[simp] theorem State.emit_cfg (v : Int) : (s.emit v).cfg = s.cfg := rfl
@[simp] theorem State.emit_getX (v : Int) (j : Fin 16) : (s.emit v).getX j = s.getX j := rfl
@[simp] theorem State.emit_ip (v : Int) : (s.emit v).ip = s.ip := rfl
@[simp] theorem State.emit_mem (v : Int) : (s.emit v).mem = s.mem := rfl
@[simp] theorem State.emit_halted (v : Int) : (s.emit v).halted = s.halted := rfl
@[simp] theorem State.emit_fault (v : Int) : (s.emit v).fault = s.fault := rfl
@[simp] theorem State.emit_input (v : Int) : (s.emit v).input = s.input := rfl
@[simp] theorem State.emit_output (v : Int) : (s.emit v).output = s.output ++ [v] := rfl
@[simp] theorem State.emit_cell (v a : Int) : (s.emit v).cell a = s.cell a := rfl

@[simp] theorem State.withInput_cfg (l : List Int) : (s.withInput l).cfg = s.cfg := rfl
@[simp] theorem State.withInput_getX (l : List Int) (j : Fin 16) : (s.withInput l).getX j = s.getX j := rfl
@[simp] theorem State.withInput_ip (l : List Int) : (s.withInput l).ip = s.ip := rfl
@[simp] theorem State.withInput_mem (l : List Int) : (s.withInput l).mem = s.mem := rfl
@[simp] theorem State.withInput_halted (l : List Int) : (s.withInput l).halted = s.halted := rfl
@[simp] theorem State.withInput_fault (l : List Int) : (s.withInput l).fault = s.fault := rfl
@[simp] theorem State.withInput_input (l : List Int) : (s.withInput l).input = l := rfl
@[simp] theorem State.withInput_output (l : List Int) : (s.withInput l).output = s.output := rfl
@[simp] theorem State.withInput_cell (l : List Int) (a : Int) : (s.withInput l).cell a = s.cell a := rfl

@[simp] theorem State.halt_cfg : s.halt.cfg = s.cfg := rfl
@[simp] theorem State.halt_getX (j : Fin 16) : s.halt.getX j = s.getX j := rfl
@[simp] theorem State.halt_ip : s.halt.ip = s.ip := rfl
@[simp] theorem State.halt_mem : s.halt.mem = s.mem := rfl
@[simp] theorem State.halt_halted : s.halt.halted = true := rfl
@[simp] theorem State.halt_fault : s.halt.fault = s.fault := rfl
@[simp] theorem State.halt_input : s.halt.input = s.input := rfl
@[simp] theorem State.halt_output : s.halt.output = s.output := rfl

end Sys2Proof.Machine
end

