-- ==== Sys2Proof/Laws/Ops.lean ====
section
/-!
SUPPORT. What the shared operations can do, each said once: wrapping, memory by cell, checked accesses, the resolver,
raising and the fetch.
-/

namespace Sys2Proof.Machine

/-! ### wrap (R110) -/

theorem two_pow_succ_pred {n : Nat} (h : 1 ≤ n) : (2 : Int) ^ n = 2 * 2 ^ (n - 1) := by
  obtain ⟨k, rfl⟩ : ∃ k, n = k + 1 := ⟨n - 1, by omega⟩
  simp [pow_succ, mul_comm]

theorem wrap_fits {xlen : Nat} (h : 1 ≤ xlen) (z : Int) : Fits xlen (wrap xlen z) := by
  have hp : (0 : Int) < 2 ^ (xlen - 1) := by positivity
  have hm : ((2 ^ xlen : Nat) : Int) = 2 * 2 ^ (xlen - 1) := by push_cast; exact two_pow_succ_pred h
  have h1 := Int.le_bmod (x := z) (m := 2 ^ xlen) (by positivity)
  have h2 := Int.bmod_lt (x := z) (m := 2 ^ xlen) (by positivity)
  rw [hm] at h1 h2
  simp only [Fits, minWord, maxWord, wrap]
  generalize (2 : Int) ^ (xlen - 1) = p at *
  omega

theorem wrap_of_fits {xlen : Nat} (h : 1 ≤ xlen) {z : Int} (hz : Fits xlen z) : wrap xlen z = z := by
  have hm : ((2 ^ xlen : Nat) : Int) = 2 * 2 ^ (xlen - 1) := by push_cast; exact two_pow_succ_pred h
  simp only [Fits, minWord, maxWord] at hz
  generalize (2 : Int) ^ (xlen - 1) = p at *
  exact Int.bmod_eq_of_le (by rw [hm]; omega) (by rw [hm]; omega)

/-- The wrapped integer differs from the exact one by a multiple of 2^XLEN. -/
theorem wrap_congr (xlen : Nat) (z : Int) : ∃ k : Int, wrap xlen z = z + k * 2 ^ xlen := by
  refine ⟨-Int.bdiv z (2 ^ xlen), ?_⟩
  have h := Int.bmod_add_bdiv z (2 ^ xlen)
  have hc : ((2 ^ xlen : Nat) : Int) = 2 ^ xlen := by push_cast; rfl
  rw [hc] at h
  simp only [wrap]
  linarith [mul_comm ((2 : Int) ^ xlen) (Int.bdiv z (2 ^ xlen))]

/-! ### Memory by cell -/

theorem Memory.read_insert (m : Memory) (a b : Nat) (v : Int) (hm : m.wf = true) :
    (m.insert a v).read b = if b = a then v else m.read b := by
  fun_induction Memory.insert m a v with
  | case1 => simp [Memory.read]
  | case2 b' w rest a v h =>
    simp only [Memory.read]
  | case3 b' w rest v h =>
    simp only [Memory.read]
    split_ifs <;> rfl
  | case4 b' w rest a v h1 h2 ih =>
    have hr : Memory.wf rest = true := by
      cases rest with
      | nil => rfl
      | cons c cs => obtain ⟨c1, c2⟩ := c; simp [Memory.wf] at hm; exact hm.2
    simp only [Memory.read, ih hr]
    split_ifs <;> simp_all

/-- The addresses of a canonical memory after its first are greater than its first. -/
theorem Memory.wf_cons {a : Nat} {v : Int} {m : Memory} :
    Memory.wf ((a, v) :: m) = true ↔ v ≠ 0 ∧ (∀ c ∈ m, a < c.1) ∧ m.wf = true := by
  induction m generalizing a v with
  | nil => simp [Memory.wf]
  | cons c m ih =>
    obtain ⟨b, w⟩ := c
    simp only [Memory.wf, Bool.and_eq_true, bne_iff_ne, ne_eq, decide_eq_true_eq, List.mem_cons, forall_eq_or_imp]
    constructor
    · rintro ⟨⟨hv, hab⟩, hm⟩
      exact ⟨hv, ⟨hab, fun c hc => lt_trans hab ((ih.1 hm).2.1 c hc)⟩, hm⟩
    · rintro ⟨hv, ⟨hab, -⟩, hm⟩
      exact ⟨⟨hv, hab⟩, hm⟩

theorem Memory.read_eq_zero {m : Memory} {a : Nat} (h : ∀ c ∈ m, c.1 ≠ a) : m.read a = 0 := by
  induction m with
  | nil => rfl
  | cons c m ih =>
    obtain ⟨b, w⟩ := c
    have hb : ¬ a = b := fun e => h (b, w) (by simp) e.symm
    simp only [Memory.read, hb, if_false]
    exact ih fun c hc => h c (by simp [hc])

theorem Memory.mem_erase {m : Memory} {a : Nat} {c : Nat × Int} (h : c ∈ Memory.erase m a) : c ∈ m := by
  induction m with
  | nil => simp [Memory.erase] at h
  | cons d m ih =>
    obtain ⟨b, w⟩ := d
    simp only [Memory.erase] at h
    split at h
    · exact List.mem_cons_of_mem _ h
    · rcases List.mem_cons.1 h with rfl | h
      · simp
      · exact List.mem_cons_of_mem _ (ih h)

theorem Memory.mem_insert {m : Memory} {a : Nat} {v : Int} {c : Nat × Int} (h : c ∈ Memory.insert m a v) :
    c = (a, v) ∨ c ∈ m := by
  induction m with
  | nil => simpa [Memory.insert] using h
  | cons d m ih =>
    obtain ⟨b, w⟩ := d
    simp only [Memory.insert] at h
    split at h
    · rcases List.mem_cons.1 h with rfl | h
      · exact .inl rfl
      · exact .inr h
    · split at h
      · rcases List.mem_cons.1 h with rfl | h
        · exact .inl rfl
        · exact .inr (List.mem_cons_of_mem _ h)
      · rcases List.mem_cons.1 h with rfl | h
        · exact .inr (by simp)
        · rcases ih h with h | h
          · exact .inl h
          · exact .inr (List.mem_cons_of_mem _ h)

/-- An entry after a write is the written one or was there before. -/
theorem Memory.mem_write {m : Memory} {a : Nat} {v : Int} {c : Nat × Int} (h : c ∈ Memory.write m a v) :
    c = (a, v) ∨ c ∈ m := by
  unfold Memory.write at h
  split at h
  · exact .inr (Memory.mem_erase h)
  · exact Memory.mem_insert h

theorem Memory.read_erase (m : Memory) (a b : Nat) (hm : m.wf = true) :
    (Memory.erase m a).read b = if b = a then 0 else m.read b := by
  induction m with
  | nil => simp [Memory.erase, Memory.read]
  | cons c m ih =>
    obtain ⟨d, w⟩ := c
    obtain ⟨-, hlt, hr⟩ := Memory.wf_cons.1 hm
    simp only [Memory.erase]
    split
    · next h =>
      subst h
      simp only [Memory.read]
      split_ifs with hb
      · subst hb; exact Memory.read_eq_zero fun c hc => (ne_of_gt (hlt c hc))
      · rfl
    · next h =>
      simp only [Memory.read, ih hr]
      split_ifs <;> simp_all

/-- Read after write, the same cell or another (R48). -/
theorem Memory.read_write (m : Memory) (a b : Nat) (v : Int) (hm : m.wf = true) :
    (Memory.write m a v).read b = if b = a then v else m.read b := by
  unfold Memory.write
  split
  · next h => subst h; exact Memory.read_erase m a b hm
  · exact Memory.read_insert m a b v hm

theorem Memory.wf_erase (m : Memory) (a : Nat) (hm : m.wf = true) : (Memory.erase m a).wf = true := by
  induction m with
  | nil => rfl
  | cons c m ih =>
    obtain ⟨d, w⟩ := c
    obtain ⟨hw, hlt, hr⟩ := Memory.wf_cons.1 hm
    simp only [Memory.erase]
    split
    · exact hr
    · exact Memory.wf_cons.2 ⟨hw, fun c hc => hlt c (Memory.mem_erase hc), ih hr⟩

theorem Memory.wf_insert (m : Memory) (a : Nat) (v : Int) (hv : v ≠ 0) (hm : m.wf = true) :
    (Memory.insert m a v).wf = true := by
  induction m with
  | nil => simpa [Memory.insert, Memory.wf] using hv
  | cons c m ih =>
    obtain ⟨d, w⟩ := c
    obtain ⟨hw, hlt, hr⟩ := Memory.wf_cons.1 hm
    simp only [Memory.insert]
    split
    · next h =>
      refine Memory.wf_cons.2 ⟨hv, fun c hc => ?_, hm⟩
      rcases List.mem_cons.1 hc with rfl | hc
      · exact h
      · exact lt_trans h (hlt c hc)
    · split
      · next h => subst h; exact Memory.wf_cons.2 ⟨hv, hlt, hr⟩
      · next h1 h2 =>
        refine Memory.wf_cons.2 ⟨hw, fun c hc => ?_, ih hr⟩
        rcases Memory.mem_insert hc with rfl | hc
        · simp only; omega
        · exact hlt c hc

/-- A write keeps the canonical form. -/
theorem Memory.wf_write (m : Memory) (a : Nat) (v : Int) (hm : m.wf = true) : (Memory.write m a v).wf = true := by
  unfold Memory.write
  split
  · exact Memory.wf_erase m a hm
  · next h => exact Memory.wf_insert m a v h hm

/-- Reset memory is canonical. -/
theorem Memory.wf_reset (cfg : Config) (input : List Int) : (State.resetWith cfg input).mem.wf = true := rfl

/-! ### Serialised cells (R38) -/

@[simp] theorem length_serialiseCell (xlen : Nat) (v : Int) : (serialiseCell xlen v).length = cellBytes xlen :=
  length_serialise _ _

/-! ### Raising, and going on with a checked value -/

@[simp] theorem attempt_ok {α : Type} (s : State) (a : α) (k : α → StepOutcome) : attempt s (.ok a) k = k a := rfl

@[simp] theorem attempt_error {α : Type} (s : State) (e : FaultRecord) (k : α → StepOutcome) :
    attempt s (.error e) k = .next (s.raise e) := rfl

/-- All that `attempt` can answer. -/
theorem attempt_eq_next {α : Type} {s t : State} {r : Except FaultRecord α} {k : α → StepOutcome} :
    attempt s r k = .next t ↔ (∃ a, r = .ok a ∧ k a = .next t) ∨ (∃ e, r = .error e ∧ t = s.raise e) := by
  cases r with
  | ok a => simp
  | error e => simp [eq_comm]

/-! ### The resolver (R84, R85) -/

theorem slot_ok {s : State} {i : Int} (h : 0 ≤ i ∧ i ≤ 15) : slot s i = .ok ⟨i.toNat, by omega⟩ := by
  simp [slot, h]

theorem slot_error {s : State} {i : Int} (h : ¬ (0 ≤ i ∧ i ≤ 15)) : slot s i = .error (badRegister s i) := by
  simp only [slot, dif_neg h]

theorem slot_eq_ok {s : State} {i : Int} {r : Fin 16} : slot s i = .ok r ↔ i = (r.val : Int) := by
  constructor
  · intro h
    unfold slot at h
    split at h
    · next hi => cases h; simp only; omega
    · cases h
  · rintro rfl
    rw [slot_ok ⟨by omega, by omega⟩]
    rfl

theorem slot_eq_error {s : State} {i : Int} {e : FaultRecord} :
    slot s i = .error e ↔ ¬ (0 ≤ i ∧ i ≤ 15) ∧ e = badRegister s i := by
  by_cases h : 0 ≤ i ∧ i ≤ 15
  · simp [slot_ok h, h]
  · simp only [slot_error h, h, not_false_eq_true, true_and, Except.error.injEq, eq_comm]

@[simp] theorem value_lit (s : State) (v : Int) : value s (.lit v) = .ok v := rfl

@[simp] theorem value_reg (s : State) (r : Fin 16) : value s (.reg (r.val : Int)) = .ok (s.getX r) := by
  have h : slot s (r.val : Int) = .ok r := slot_eq_ok.2 rfl
  simp [value, h]

theorem value_reg_error {s : State} {i : Int} (h : ¬ (0 ≤ i ∧ i ≤ 15)) : value s (.reg i) = .error (badRegister s i) := by
  simp [value, slot_error h]

@[simp] theorem target_slot (s : State) (r : Fin 16) : target s (r.val : Int) = .ok r := slot_eq_ok.2 rfl

/-- All that `value` can give. -/
theorem value_eq_ok {s : State} {o : Operand} {v : Int} :
    value s o = .ok v ↔ o = .lit v ∨ ∃ r : Fin 16, o = .reg (r.val : Int) ∧ v = s.getX r := by
  cases o with
  | lit w => simp
  | reg i =>
    by_cases h : 0 ≤ i ∧ i ≤ 15
    · have hs := slot_ok (s := s) h
      simp only [value, hs, Except.ok.injEq, reduceCtorEq, false_or, Operand.reg.injEq]
      constructor
      · rintro rfl
        exact ⟨⟨i.toNat, by omega⟩, by simp only; omega, rfl⟩
      · rintro ⟨r, rfl, rfl⟩
        rfl
    · rw [value_reg_error h]
      simp only [reduceCtorEq, false_or, Operand.reg.injEq, false_iff, not_exists, not_and]
      rintro r rfl
      exact absurd ⟨by omega, by omega⟩ h

/-- The only error of the resolver (R162). -/
theorem value_eq_error {s : State} {o : Operand} {e : FaultRecord} :
    value s o = .error e ↔ ∃ i, o = .reg i ∧ ¬ (0 ≤ i ∧ i ≤ 15) ∧ e = badRegister s i := by
  cases o with
  | lit w => simp
  | reg i =>
    simp only [value, Operand.reg.injEq]
    cases hs : slot s i with
    | ok r =>
      have := slot_eq_ok.1 hs
      simp only [reduceCtorEq, false_iff, not_exists, not_and]
      rintro j rfl hj
      exact (hj (by omega) (by omega)).elim
    | error e' =>
      obtain ⟨h1, h2⟩ := slot_eq_error.1 hs
      simp only [Except.error.injEq, exists_eq_left', h1, not_false_eq_true, true_and, h2, eq_comm]

/-! ### Checked accesses (R34, R164) -/

theorem memRead_ok {s : State} {a : Int} (h : s.ValidAddress a) : memRead s a = .ok (s.cell a) := if_pos h

theorem memRead_error {s : State} {a : Int} (h : ¬ s.ValidAddress a) : memRead s a = .error ⟨.memoryOutOfBounds, a⟩ :=
  if_neg h

theorem memWrite_ok {s : State} {a v : Int} (h : s.ValidAddress a) : memWrite s a v = .ok (s.setCell a v) := if_pos h

theorem memWrite_error {s : State} {a v : Int} (h : ¬ s.ValidAddress a) :
    memWrite s a v = .error ⟨.memoryOutOfBounds, a⟩ := if_neg h

@[simp] theorem takeInput_nil {s : State} (h : s.input = []) : takeInput s = .error ⟨.inputExhausted, 0⟩ := by
  simp [takeInput, h]

@[simp] theorem takeInput_cons {s : State} {v : Int} {rest : List Int} (h : s.input = v :: rest) :
    takeInput s = .ok (v, s.withInput rest) := by
  simp [takeInput, h]

/-- A store changes the addressed cell and no other (R39, R48). -/
theorem State.cell_setCell {s : State} {a b v : Int} (hm : s.mem.wf = true) (ha : 0 ≤ a) :
    (s.setCell a v).cell b = if b = a then v else s.cell b := by
  simp only [State.cell, State.setCell_mem, Memory.read_write _ _ _ _ hm]
  by_cases hb : 0 ≤ b
  · have : b.toNat = a.toNat ↔ b = a := by omega
    simp [hb, this]
  · have : ¬ b = a := by omega
    simp [hb, this]

/-! ### The fetch (R82, R83) -/

theorem fetch_eq_none {s : State} : s.fetch = none ↔ ¬ s.IpInProgram := by
  unfold State.fetch State.IpInProgram Config.plen
  split
  · next h => simp only [List.getElem?_eq_none_iff, h, true_and, not_lt]; omega
  · next h => simp [h]

theorem fetch_eq_some {s : State} {w : InstrWord s.cfg.xlen} :
    s.fetch = some w ↔ 0 ≤ s.ip ∧ s.cfg.program[s.ip.toNat]? = some w := by
  unfold State.fetch
  split
  · next h => simp [h]
  · next h => simp [h]

end Sys2Proof.Machine
end

