-- ==== Sys2Proof/Laws/Encode.lean ====
section
/-!
SUPPORT. An operand and a target survive their fields, and the fields survive their operand and target.
-/

namespace Sys2Proof

open Sys2Proof.Machine

theorem operandOf_fieldBits {xlen : Nat} (hx : 1 ≤ xlen) {o : Operand} (ho : o.wf xlen = true) :
    operandOf (modeBit o) (fieldBits xlen o) = o := by
  have key : ∀ v : Int, Fits xlen v → (BitVec.ofInt xlen v).toInt = v := by
    intro v hv
    rw [BitVec.toInt_ofInt]
    exact wrap_of_fits hx hv
  cases o with
  | lit v => simp [operandOf, modeBit, fieldBits, key v (by simpa [Operand.wf] using ho)]
  | reg i => simp [operandOf, modeBit, fieldBits, key i (by simpa [Operand.wf] using ho)]

theorem targetOf_targetBits {t : Int} (ht : targetWf t = true) : targetOf (targetBits t) = t := by
  simp only [targetWf, decide_eq_true_eq] at ht
  simp only [targetOf, targetBits, BitVec.toNat_ofInt]
  omega

theorem fits_toInt {xlen : Nat} (hx : 1 ≤ xlen) (b : BitVec xlen) : Fits xlen b.toInt := by
  have e : wrap xlen b.toInt = b.toInt := by
    rw [wrap, ← BitVec.toInt_ofInt, BitVec.ofInt_toInt]
  exact e ▸ wrap_fits hx b.toInt

theorem wf_operandOf {xlen : Nat} (hx : 1 ≤ xlen) (m : BitVec 1) (b : BitVec xlen) : (operandOf m b).wf xlen = true := by
  unfold operandOf
  split <;> simpa only [Operand.wf, decide_eq_true_eq] using fits_toInt hx b

theorem modeBit_operandOf {xlen : Nat} (m : BitVec 1) (b : BitVec xlen) : modeBit (operandOf m b) = m := by
  have h : m = 0 ∨ m = 1 := by
    revert m
    decide
  rcases h with rfl | rfl <;> simp [operandOf, modeBit]

theorem fieldBits_operandOf {xlen : Nat} (m : BitVec 1) (b : BitVec xlen) : fieldBits xlen (operandOf m b) = b := by
  unfold operandOf
  split <;> simp [fieldBits, BitVec.ofInt_toInt]

theorem targetBits_targetOf (t : BitVec 8) : targetBits (targetOf t) = t := by
  simp [targetBits, targetOf]

theorem targetWf_targetOf (t : BitVec 8) : targetWf (targetOf t) = true := by
  have := t.isLt
  simp [targetWf, targetOf]
  omega

end Sys2Proof
end

