-- ==== Sys2Proof/Laws/Exec.lean ====
section
/-!
SUPPORT. All that the two shared shapes of an instruction can answer, the arithmetic shape and the jump; and then, said
once for all eleven instructions, all that `exec` can answer (`exec_effect`).
-/

namespace Sys2Proof.Machine

/-- The arithmetic shape answers the written result, or the error of the first check that fails. -/
theorem arithmetic_eq_next {f : Int → Int → Int} {src1 src2 : Operand} {tgt : Int} {s t : State} :
    arithmetic f src1 src2 tgt s = .next t ↔
      (∃ p q r, value s src1 = .ok p ∧ value s src2 = .ok q ∧ target s tgt = .ok r ∧ t = (s.setX r (f p q)).advance) ∨
      (∃ e, t = s.raise e ∧ (value s src1 = .error e ∨ (∃ p, value s src1 = .ok p ∧ value s src2 = .error e) ∨
        (∃ p q, value s src1 = .ok p ∧ value s src2 = .ok q ∧ target s tgt = .error e))) := by
  simp only [arithmetic, attempt_eq_next, Host.Outcome.next.injEq]
  constructor
  · rintro (⟨p, hp, ⟨q, hq, ⟨r, hr, rfl⟩ | ⟨e, he, rfl⟩⟩ | ⟨e, he, rfl⟩⟩ | ⟨e, he, rfl⟩)
    · exact .inl ⟨p, q, r, hp, hq, hr, rfl⟩
    · exact .inr ⟨e, rfl, .inr (.inr ⟨p, q, hp, hq, he⟩)⟩
    · exact .inr ⟨e, rfl, .inr (.inl ⟨p, hp, he⟩)⟩
    · exact .inr ⟨e, rfl, .inl he⟩
  · rintro (⟨p, q, r, hp, hq, hr, rfl⟩ | ⟨e, rfl, he | ⟨p, hp, he⟩ | ⟨p, q, hp, hq, he⟩⟩)
    · exact .inl ⟨p, hp, .inl ⟨q, hq, .inl ⟨r, hr, rfl⟩⟩⟩
    · exact .inr ⟨e, he, rfl⟩
    · exact .inl ⟨p, hp, .inr ⟨e, he, rfl⟩⟩
    · exact .inl ⟨p, hp, .inl ⟨q, hq, .inr ⟨e, he, rfl⟩⟩⟩

/-- A jump answers the target when taken, the advance when not, or the error of the first operand that fails. -/
theorem jumpWhen_eq_next {c : Condition} {src addr : Operand} {s t : State} :
    jumpWhen c src addr s = .next t ↔
      (∃ v a, value s src = .ok v ∧ value s addr = .ok a ∧ t = if evaluate c v then s.setIp a else s.advance) ∨
      (∃ e, t = s.raise e ∧ (value s src = .error e ∨ (∃ v, value s src = .ok v ∧ value s addr = .error e))) := by
  simp only [jumpWhen, attempt_eq_next, Host.Outcome.next.injEq]
  constructor
  · rintro (⟨v, hv, ⟨a, ha, rfl⟩ | ⟨e, he, rfl⟩⟩ | ⟨e, he, rfl⟩)
    · exact .inl ⟨v, a, hv, ha, rfl⟩
    · exact .inr ⟨e, rfl, .inr ⟨v, hv, he⟩⟩
    · exact .inr ⟨e, rfl, .inl he⟩
  · rintro (⟨v, a, hv, ha, rfl⟩ | ⟨e, rfl, he | ⟨v, hv, he⟩⟩)
    · exact .inl ⟨v, hv, .inl ⟨a, ha, rfl⟩⟩
    · exact .inr ⟨e, he, rfl⟩
    · exact .inl ⟨v, hv, .inr ⟨e, he, rfl⟩⟩

@[simp] theorem exec_jump (c : Condition) (src addr : Operand) (s : State) :
    exec (Instr.jump c src addr) s = jumpWhen c src addr s := by
  cases c <;> rfl

/-! ### All that an instruction can do -/

/-- The value an instruction writes to its target register, for the instructions that write one from registers, literals
and memory alone (READ is apart). -/
def Computes (i : Instr) (s : State) (v : Int) : Prop :=
  match i with
  | .cp src _ => value s src = .ok v
  | .load memref _ => ∃ a, value s memref = .ok a ∧ s.ValidAddress a ∧ v = s.cell a
  | .add src1 src2 _ => ∃ p q, value s src1 = .ok p ∧ value s src2 = .ok q ∧ v = aluAdd s.cfg.xlen p q
  | .mul src1 src2 _ => ∃ p q, value s src1 = .ok p ∧ value s src2 = .ok q ∧ v = aluMul s.cfg.xlen p q
  | .sub src1 src2 _ => ∃ p q, value s src1 = .ok p ∧ value s src2 = .ok q ∧ v = aluSub s.cfg.xlen p q
  | .store _ _ => False
  | .read _ => False
  | .write _ => False
  | .jumpZero _ _ => False
  | .jumpPos _ _ => False
  | .jumpNeg _ _ => False

/-- The effects of an instruction, with the guard of each. -/
inductive Effect (i : Instr) (s : State) : State → Prop where
  | wroteRegister (r : Fin 16) (v : Int) (hr : i.target? = some (r.val : Int)) (hv : Computes i s v) :
      Effect i s (s.setX r v).advance
  | consumedInput (r : Fin 16) (v : Int) (rest : List Int) (hi : i = .read r.val) (h : s.input = v :: rest) :
      Effect i s ((s.withInput rest).setX r v).advance
  | stored (src memref : Operand) (v a : Int) (hi : i = .store src memref) (hv : value s src = .ok v)
      (ha : value s memref = .ok a) (h : s.ValidAddress a) : Effect i s (s.setCell a v).advance
  | emitted (src : Operand) (v : Int) (hi : i = .write src) (hv : value s src = .ok v) : Effect i s (s.emit v).advance
  | jumped (c : Condition) (src addr : Operand) (v a : Int) (hi : i = Instr.jump c src addr) (hv : value s src = .ok v)
      (ha : value s addr = .ok a) (hc : evaluate c v = true) : Effect i s (s.setIp a)
  | fellThrough (c : Condition) (src addr : Operand) (v a : Int) (hi : i = Instr.jump c src addr)
      (hv : value s src = .ok v) (ha : value s addr = .ok a) (hc : evaluate c v = false) : Effect i s s.advance
  | badIndex (k : Int) (hk : k ∈ i.indices) (hb : ¬ InRange k) : Effect i s (s.raise (badRegister s k))
  | outOfBounds (memref : Operand) (a : Int) (hi : (∃ tgt, i = .load memref tgt) ∨ ∃ src, i = .store src memref)
      (ha : value s memref = .ok a) (hb : ¬ s.ValidAddress a) : Effect i s (s.raise ⟨.memoryOutOfBounds, a⟩)
  | inputExhausted (tgt : Int) (hi : i = .read tgt) (h : s.input = []) : Effect i s (s.raise ⟨.inputExhausted, 0⟩)

theorem effect_of_source_error {s : State} {o : Operand} {e : FaultRecord} (h : value s o = .error e) (i : Instr)
    (ho : o ∈ i.sources) : Effect i s (s.raise e) := by
  obtain ⟨k, rfl, hk, rfl⟩ := value_eq_error.1 h
  refine .badIndex k ?_ hk
  simp only [Instr.indices, List.mem_append, List.mem_filterMap]
  exact .inl ⟨_, ho, rfl⟩

theorem effect_of_target_error {s : State} {t : Int} {e : FaultRecord} (h : target s t = .error e) (i : Instr)
    (ht : i.target? = some t) : Effect i s (s.raise e) := by
  obtain ⟨hk, rfl⟩ := slot_eq_error.1 h
  refine .badIndex t ?_ hk
  simp [Instr.indices, ht]

theorem target_eq_ok {s : State} {t : Int} {r : Fin 16} (h : target s t = .ok r) : t = (r.val : Int) := slot_eq_ok.1 h

theorem arithmetic_effect {i : Instr} {f : Int → Int → Int} {src1 src2 : Operand} {tgt : Int} {s : State}
    (h1 : src1 ∈ i.sources) (h2 : src2 ∈ i.sources) (ht : i.target? = some tgt)
    (hc : ∀ p q, value s src1 = .ok p → value s src2 = .ok q → Computes i s (f p q)) :
    ∃ t, arithmetic f src1 src2 tgt s = .next t ∧ Effect i s t := by
  unfold arithmetic
  cases hp : value s src1 with
  | error e => exact ⟨_, rfl, effect_of_source_error hp i h1⟩
  | ok p =>
    cases hq : value s src2 with
    | error e => exact ⟨_, rfl, effect_of_source_error hq i h2⟩
    | ok q =>
      cases hr : target s tgt with
      | error e => exact ⟨_, rfl, effect_of_target_error hr i ht⟩
      | ok r => exact ⟨_, rfl, .wroteRegister r _ (target_eq_ok hr ▸ ht) (hc p q hp hq)⟩

theorem jumpWhen_effect (c : Condition) (src addr : Operand) (s : State) :
    ∃ t, jumpWhen c src addr s = .next t ∧ Effect (Instr.jump c src addr) s t := by
  have hs : src ∈ (Instr.jump c src addr).sources := by cases c <;> simp [Instr.jump, Instr.sources]
  have ha : addr ∈ (Instr.jump c src addr).sources := by cases c <;> simp [Instr.jump, Instr.sources]
  unfold jumpWhen
  cases hv : value s src with
  | error e => exact ⟨_, rfl, effect_of_source_error hv _ hs⟩
  | ok v =>
    cases hw : value s addr with
    | error e => exact ⟨_, rfl, effect_of_source_error hw _ ha⟩
    | ok a =>
      refine ⟨_, rfl, ?_⟩
      split
      · next hc => exact .jumped c src addr v a rfl hv hw hc
      · next hc => exact .fellThrough c src addr v a rfl hv hw (by simpa using hc)

/-- Every instruction answers a next state, by one of the effects. -/
theorem exec_effect (i : Instr) (s : State) : ∃ t, exec i s = .next t ∧ Effect i s t := by
  cases i with
  | cp src tgt =>
    simp only [exec, execCp]
    cases hv : value s src with
    | error e => exact ⟨_, rfl, effect_of_source_error hv _ (by simp [Instr.sources])⟩
    | ok v =>
      cases hr : target s tgt with
      | error e => exact ⟨_, rfl, effect_of_target_error hr _ rfl⟩
      | ok r => exact ⟨_, rfl, .wroteRegister r v (target_eq_ok hr ▸ rfl) hv⟩
  | load memref tgt =>
    simp only [exec, execLoad]
    cases ha : value s memref with
    | error e => exact ⟨_, rfl, effect_of_source_error ha _ (by simp [Instr.sources])⟩
    | ok a =>
      cases hr : target s tgt with
      | error e => exact ⟨_, rfl, effect_of_target_error hr _ rfl⟩
      | ok r =>
        by_cases hv : s.ValidAddress a
        · exact ⟨_, by simp only [attempt_ok, memRead_ok hv], .wroteRegister r _ (target_eq_ok hr ▸ rfl) ⟨a, ha, hv, rfl⟩⟩
        · exact ⟨_, by simp only [attempt_ok, memRead_error hv, attempt_error], .outOfBounds memref a (.inl ⟨tgt, rfl⟩) ha hv⟩
  | store src memref =>
    simp only [exec, execStore]
    cases hv : value s src with
    | error e => exact ⟨_, rfl, effect_of_source_error hv _ (by simp [Instr.sources])⟩
    | ok v =>
      cases ha : value s memref with
      | error e => exact ⟨_, rfl, effect_of_source_error ha _ (by simp [Instr.sources])⟩
      | ok a =>
        by_cases hb : s.ValidAddress a
        · exact ⟨_, by simp only [attempt_ok, memWrite_ok hb], .stored src memref v a rfl hv ha hb⟩
        · exact ⟨_, by simp only [attempt_ok, memWrite_error hb, attempt_error], .outOfBounds memref a (.inr ⟨src, rfl⟩) ha hb⟩
  | add src1 src2 tgt =>
    exact arithmetic_effect (by simp [Instr.sources]) (by simp [Instr.sources]) rfl fun p q hp hq => ⟨p, q, hp, hq, rfl⟩
  | mul src1 src2 tgt =>
    exact arithmetic_effect (by simp [Instr.sources]) (by simp [Instr.sources]) rfl fun p q hp hq => ⟨p, q, hp, hq, rfl⟩
  | sub src1 src2 tgt =>
    exact arithmetic_effect (by simp [Instr.sources]) (by simp [Instr.sources]) rfl fun p q hp hq => ⟨p, q, hp, hq, rfl⟩
  | read tgt =>
    simp only [exec, execRead]
    cases hr : target s tgt with
    | error e => exact ⟨_, rfl, effect_of_target_error hr _ rfl⟩
    | ok r =>
      cases hi : s.input with
      | nil => exact ⟨_, by simp only [attempt_ok, takeInput_nil hi, attempt_error], .inputExhausted tgt rfl hi⟩
      | cons v rest => exact ⟨_, by simp only [attempt_ok, takeInput_cons hi], .consumedInput r v rest (by rw [target_eq_ok hr]) hi⟩
  | write src =>
    simp only [exec, execWrite]
    cases hv : value s src with
    | error e => exact ⟨_, rfl, effect_of_source_error hv _ (by simp [Instr.sources])⟩
    | ok v => exact ⟨_, rfl, .emitted src v rfl hv⟩
  | jumpZero src addr => exact jumpWhen_effect .zero src addr s
  | jumpPos src addr => exact jumpWhen_effect .positive src addr s
  | jumpNeg src addr => exact jumpWhen_effect .negative src addr s

/-- The effect behind an instruction's next state. -/
theorem effect_of_exec {i : Instr} {s t : State} (h : exec i s = .next t) : Effect i s t := by
  obtain ⟨u, hu, he⟩ := exec_effect i s
  rw [h] at hu
  cases hu
  exact he

end Sys2Proof.Machine
end

