-- ==== Sys2Proof/Laws/Frames.lean ====
section
/-!
SUPPORT. What the writes and the advance of an instruction leave alone, in the terms of Safety.lean.
-/

namespace Sys2Proof.Machine

variable (s : State)

theorem wroteAndAdvanced_setX (r : Fin 16) (v : Int) : WroteAndAdvanced r v s (s.setX r v).advance := by
  refine ⟨by simp, fun j hj => by simp [hj]⟩

theorem onlyRegistersChanged_setX (r : Fin 16) (v : Int) : OnlyRegistersChanged s (s.setX r v).advance :=
  ⟨⟨rfl, rfl, rfl⟩, fun _ => rfl, ⟨rfl, rfl⟩⟩

theorem onlyAdvanced_advance : OnlyAdvanced s s.advance := ⟨by simp, fun j hj => by simp [hj]⟩

theorem onlyRegistersChanged_advance : OnlyRegistersChanged s s.advance := ⟨⟨rfl, rfl, rfl⟩, fun _ => rfl, ⟨rfl, rfl⟩⟩

theorem onlyRegistersChanged_setIp (a : Int) : OnlyRegistersChanged s (s.setIp a) :=
  ⟨⟨rfl, rfl, rfl⟩, fun _ => rfl, ⟨rfl, rfl⟩⟩

/-- A store changes the addressed cell and no other (R39). -/
theorem sameMemoryBut_setCell {a v : Int} (hm : s.mem.wf = true) (ha : 0 ≤ a) :
    SameMemoryBut a s (s.setCell a v).advance := by
  intro b hb
  rw [State.advance_cell, State.cell_setCell hm ha, if_neg hb]

theorem sameMemory_raise (e : FaultRecord) : SameMemory s (s.raise e) := fun _ => rfl

end Sys2Proof.Machine
end

