-- ==== Sys2Proof/Laws/PerInstr.lean ====
section
/-!
SUPPORT. Per instruction: the encoder gives legal words only, whatever the operands (R63, R64): opcode and condition
numbers are legal ones and every unused field is zero.
-/

namespace Sys2Proof.Laws.EncodesLegally

/-- The word of the instruction is legal at every width. -/
def Statement (i : Instr) : Prop := ∀ xlen : Nat, legal (encode xlen i) = true

/-- A word whose fields decode is legal. -/
theorem legal_of_fields {xlen : Nat} {i j : Instr} (h : decodeFields (encodeFields xlen i) = .ok j) :
    legal (encode xlen i) = true := by
  simp only [legal, decode, encode, fieldsOf_pack, h]

theorem cp (src : Operand) (tgt : Int) : Statement (.cp src tgt) := fun _ => legal_of_fields rfl
theorem load (memref : Operand) (tgt : Int) : Statement (.load memref tgt) := fun _ => legal_of_fields rfl
theorem store (src memref : Operand) : Statement (.store src memref) := fun _ => legal_of_fields rfl
theorem add (src1 src2 : Operand) (tgt : Int) : Statement (.add src1 src2 tgt) := fun _ => legal_of_fields rfl
theorem mul (src1 src2 : Operand) (tgt : Int) : Statement (.mul src1 src2 tgt) := fun _ => legal_of_fields rfl
theorem sub (src1 src2 : Operand) (tgt : Int) : Statement (.sub src1 src2 tgt) := fun _ => legal_of_fields rfl
theorem read (tgt : Int) : Statement (.read tgt) := fun _ => legal_of_fields rfl
theorem write (src : Operand) : Statement (.write src) := fun _ => legal_of_fields rfl
theorem jumpZero (src addr : Operand) : Statement (.jumpZero src addr) := fun _ => legal_of_fields rfl
theorem jumpPos (src addr : Operand) : Statement (.jumpPos src addr) := fun _ => legal_of_fields rfl
theorem jumpNeg (src addr : Operand) : Statement (.jumpNeg src addr) := fun _ => legal_of_fields rfl

end Sys2Proof.Laws.EncodesLegally
end

