-- ==== Sys2Proof/Laws/Step.lean ====
section
/-!
SUPPORT. All that a step can answer, guards included: what later proofs cite instead of unfolding `step`.
-/

namespace Sys2Proof.Machine

/-- The three ways a step is taken: the halt, the illegal word, the instruction. -/
theorem step_eq_next {s t : State} (h : step s = .next t) :
    s.fault = none ∧ s.halted = false ∧
      ((¬ s.IpInProgram ∧ t = s.halt) ∨
        ∃ w, s.fetch = some w ∧ s.IpInProgram ∧
          ((legal w = false ∧ t = s.raise ⟨.illegalInstruction, s.ip⟩) ∨
            ∃ i, decode w = .ok i ∧ exec i s = .next t ∧ Effect i s t)) := by
  unfold step at h
  split at h
  · cases h
  · next hf =>
    split at h
    · cases h
    · next hh =>
      refine ⟨hf, by simpa using hh, ?_⟩
      split at h
      · next hn =>
        cases h
        exact .inl ⟨fetch_eq_none.1 hn, rfl⟩
      · next w hw =>
        refine .inr ⟨w, hw, ?_, ?_⟩
        · by_contra hc
          rw [fetch_eq_none.2 hc] at hw
          cases hw
        · split at h
          · next hd =>
            cases h
            exact .inl ⟨legal_eq_false.2 ⟨_, hd⟩, rfl⟩
          · next i hd => exact .inr ⟨i, hd, h, effect_of_exec h⟩

/-- The halt check (R82). -/
theorem step_of_outside {s : State} (hf : s.fault = none) (hh : s.halted = false) (h : ¬ s.IpInProgram) :
    step s = .next s.halt := by
  simp [step, hf, hh, fetch_eq_none.2 h]

/-- A request in the faulted state (R94). -/
theorem step_of_fault {s : State} {e : FaultRecord} (h : s.fault = some e) : step s = .fault (.faulted e) := by
  simp [step, h]

/-- A request after Halted (R93). -/
theorem step_of_halted {s : State} (hf : s.fault = none) (hh : s.halted = true) : step s = .fault .stepAfterHalt := by
  simp [step, hf, hh]

end Sys2Proof.Machine
end

