-- ==== Sys2Proof/Tests/Slice0.lean ====
section
/-!
SUPPORT. Tests against the spec's own vectors (95_test_vectors.md, tables of 30_encoding.md), the smoke tests of
WellFormed.lean, and for every obligation with hypotheses a witness: a concrete state and operands that meet all of
them, at the boundaries of each clause.
-/

namespace Sys2Proof.Tests

open Sys2Proof Sys2Proof.Machine Sys2Proof.Assembly

/-- The reset state with the ip at an index. -/
def start (k : Int) : State := State.reset.setIp k

/-- The state whose next step runs a word of the spec. -/
def fetching (w : Nat) (s : State) : State := s.withFetchWord 80 w

/-- The state after one step on a word of the spec. -/
def after (w : Nat) (s : State) : State := afterStep (fetching w s)

/-- A program of two words, READ r0 and WRITE r0 (vector S2), with the ip at an index. -/
def echo (k : Int) : State :=
  (State.resetWith ⟨32, 16, [0x00000000000000000007, 0x00000000000000000048]⟩ [7]).setIp k

/-! ### WellFormed: an ill-formed term for each check -/

/-- R65: a literal or a register index that does not fit 32 bits, a target outside 0 .. 255. -/
theorem test_wf_refuses_fields :
    Operand.wf 32 (.lit 2147483648) = false ∧ Operand.wf 32 (.lit (-2147483649)) = false ∧
    Operand.wf 32 (.reg 2147483648) = false ∧ Operand.wf 32 (.reg (-2147483649)) = false ∧
    targetWf 256 = false ∧ targetWf (-1) = false ∧
    Operand.wf 32 (.lit 2147483647) = true ∧ Operand.wf 32 (.lit (-2147483648)) = true ∧ targetWf 255 = true := by
  decide

/-- Every field of every form is checked. -/
theorem test_wf_refuses_every_form :
    (let big := Operand.lit 2147483648
     let ok := Operand.reg 1
     [Instr.cp big 0, .cp ok 256, .load big 0, .load ok 256, .store big ok, .store ok big,
      .add big ok 0, .add ok big 0, .add ok ok 256, .mul big ok 0, .mul ok big 0, .mul ok ok 256,
      .sub big ok 0, .sub ok big 0, .sub ok ok 256, .read 256, .write big,
      .jumpZero big ok, .jumpZero ok big, .jumpPos big ok, .jumpPos ok big, .jumpNeg big ok, .jumpNeg ok big].any
      (Instr.wf 32)) = false := by
  decide

/-- R52, R53: an index outside 0 .. 15. -/
theorem test_indices_refused :
    [Instr.cp (.reg 16) 0, .cp (.reg (-1)) 0, .load (.lit 0) 16, .store (.lit 0) (.reg 99), .read 16,
      .jumpPos (.lit 0) (.reg 99)].any Instr.indicesInRange = false := by
  decide

/-- R4, R5: the bounds of XLEN and MEM_CAP. -/
theorem test_config_refused :
    Config.wf ⟨31, 16, []⟩ = false ∧ Config.wf ⟨32, 2147483649, []⟩ = false ∧ Config.wf ⟨32, 2147483648, []⟩ = true := by
  decide

/-- R6: the bound of PLEN at XLEN = 32. -/
theorem test_plen_refused (p : List (InstrWord 32)) (h : p.length = 2147483648) : Config.wf ⟨32, 16, p⟩ = false := by
  have : ¬ p.length ≤ 2147483647 := by omega
  simp [Config.wf, Config.plen, this]

/-! ### Decoding: the words of 95_test_vectors.md 2.1, every row of the opcode table among them -/

theorem test_decode_cp_load_store :
    [0x00000000000000010201, 0x00000000FFFFFFFF0301, 0x000000007FFFFFFF0101, 0x00000000000000080E01,
      0x00000000000000030002, 0x00000000000000010542, 0x00000003000000630003, 0x000000010000000200C3,
      0x0000000E0000000B0083, 0xFFFFFFFF000000050003].map (decodeTableWord 80) =
    [some (.cp (.lit 1) 2), some (.cp (.lit (-1)) 3), some (.cp (.lit 2147483647) 1), some (.cp (.lit 8) 14),
      some (.load (.lit 3) 0), some (.load (.reg 1) 5), some (.store (.lit 99) (.lit 3)),
      some (.store (.reg 2) (.reg 1)), some (.store (.lit 11) (.reg 14)), some (.store (.lit 5) (.lit (-1)))] := by
  decide

theorem test_decode_arithmetic :
    [0x000000050000000404C4, 0x00000001000000010144, 0x000000000000000F0044, 0x000000010000000202C5,
      0x00000007FFFFFFFD0905, 0x00000001000000010146, 0x000000000000000103C6].map (decodeTableWord 80) =
    [some (.add (.reg 4) (.reg 5) 4), some (.add (.reg 1) (.lit 1) 1), some (.add (.reg 15) (.lit 0) 0),
      some (.mul (.reg 2) (.reg 1) 2), some (.mul (.lit (-3)) (.lit 7) 9), some (.sub (.reg 1) (.lit 1) 1),
      some (.sub (.reg 1) (.reg 0) 3)] := by
  decide

theorem test_decode_streams_and_jumps :
    [0x00000000000000000007, 0x00000000000000000F07, 0x00000000000000020048, 0x000000000000006F0008,
      0x00000000FFFFFFF90008, 0x00000006000000010049, 0x00000003000000010059, 0x0000000E000000010069,
      0x00000002000000000009, 0x0000000F000000000089, 0xFFFFFFFB000000000009].map (decodeTableWord 80) =
    [some (.read 0), some (.read 15), some (.write (.reg 2)), some (.write (.lit 111)), some (.write (.lit (-7))),
      some (.jumpZero (.reg 1) (.lit 6)), some (.jumpPos (.reg 1) (.lit 3)), some (.jumpNeg (.reg 1) (.lit 14)),
      some (.jumpZero (.lit 0) (.lit 2)), some (.jumpZero (.lit 0) (.reg 15)), some (.jumpZero (.lit 0) (.lit (-5)))] := by
  decide

/-- The out-of-range indices of 2.1 decode; their errors are `test_step_bad_indices`. -/
theorem test_decode_bad_indices :
    [0x00000000000000100041, 0x00000000000000001001, 0x00000000FFFFFFFF0044, 0x0000000000000010C841,
      0x00000063000000000099].map (decodeTableWord 80) =
    [some (.cp (.reg 16) 0), some (.cp (.lit 0) 16), some (.add (.reg (-1)) (.lit 0) 0), some (.cp (.reg 16) 200),
      some (.jumpPos (.lit 0) (.reg 99))] := by
  decide

/-- Why a 32-bit-wide word is illegal. -/
def reason (w : Nat) : Option Illegal :=
  match decode (xlen := 32) (BitVec.ofNat 80 w) with
  | .ok _ => none
  | .error e => some e

/-- The illegal words of 2.1. -/
theorem test_decode_illegal :
    [0x00000000000000000000, 0x0000000000000000000A, 0x0000000000000000000F, 0x00000000000000000011,
      0x00000001000000000001, 0x00000000000000000081, 0x00000000000000000047, 0x00000000000000010007,
      0x00000000000000000103, 0x00000000000000000108, 0x00000000000000000039, 0x00000000000000000109].map reason =
    [some .opcode, some .opcode, some .opcode, some .condNotZero, some .unusedNotZero, some .unusedNotZero,
      some .unusedNotZero, some .unusedNotZero, some .unusedNotZero, some .unusedNotZero, some .jumpCondition,
      some .unusedNotZero] := by
  decide

/-- The two words of 2.1 at XLEN = 64. -/
theorem test_encode_64 :
    encode 64 (.mul (.reg 2) (.reg 1) 2) = 0x0000000000000001000000000000000202C5 ∧
    encode 64 (.cp (.lit (-1)) 3) = 0x0000000000000000FFFFFFFFFFFFFFFF0301 := by
  decide

/-- The match and mask columns of 30_encoding.md B.4 at XLEN = 32. -/
theorem test_match_mask_table :
    (opcodeRows 32).map (fun r => (r.pattern.toNat, r.mask.toNat)) =
    [(0x1, 0xFFFFFFFF0000000000BF), (0x2, 0xFFFFFFFF0000000000BF), (0x3, 0xFF3F), (0x4, 0x3F), (0x5, 0x3F),
      (0x6, 0x3F), (0x7, 0xFFFFFFFFFFFFFFFF00FF), (0x8, 0xFFFFFFFF00000000FFBF), (0x9, 0xFF3F), (0x19, 0xFF3F),
      (0x29, 0xFF3F)] := by
  decide

/-- R38: the bytes of `MUL r2, r1, r2`, lowest first; a word of more than 80 bits is refused. -/
theorem test_serialise :
    serialise 10 0x000000010000000202C5 = [0xC5, 0x02, 0x02, 0, 0, 0, 0x01, 0, 0, 0] ∧
    decodeTableWord 88 0x000000010000000202C5 = none := by
  decide

/-- R38: the bytes of a cell that holds -2 and of one that holds 258, lowest first, and back. -/
theorem test_serialise_cell :
    serialiseCell 32 (-2) = [0xFE, 0xFF, 0xFF, 0xFF] ∧ cellOfBytes 32 [0xFE, 0xFF, 0xFF, 0xFF] = some (-2) ∧
    serialiseCell 32 258 = [2, 1, 0, 0] ∧ cellOfBytes 32 [0, 0, 0, 0, 0] = none := by
  decide

/-! ### One step on a word of the spec -/

theorem test_withFetchWord_runs_the_word :
    step (State.reset.withFetchWord 80 0x000000010000000202C5) =
      exec (.mul (.reg 2) (.reg 1) 2) (State.reset.withFetchWord 80 0x000000010000000202C5) := rfl

/-- V-CP-1. -/
theorem test_cp : (after 0x00000000000000010201 (start 0)).getX 2 = 1 ∧ (after 0x00000000000000010201 (start 0)).ip = 1 := by
  decide

/-- V-CP-4 and V-CP-6: a written ip advances, and wraps. -/
theorem test_cp_ip :
    (after 0x00000000000000030F01 (start 1)).ip = 4 ∧ (after 0x000000007FFFFFFF0F01 (start 0)).ip = -2147483648 := by
  decide

/-- V-M-8. -/
theorem test_load_target_is_source :
    (after 0x00000000000000010142 (((start 0).setX 1 2).setCell 2 40)).getX 1 = 40 := by
  decide

/-- V-M-3 and V-M-4. -/
theorem test_load_bounds :
    (after 0x00000000000000100102 (start 0)).fault = some ⟨.memoryOutOfBounds, 16⟩ ∧
    (after 0x00000000FFFFFFFF0102 (start 0)).fault = some ⟨.memoryOutOfBounds, -1⟩ := by
  decide

/-- V-M-5 and V-M-10. -/
theorem test_store :
    (after 0x0000000F000000050003 (start 0)).cell 15 = 5 ∧
    (after 0x000000010000000200C3 (((start 0).setX 2 (-3)).setX 1 4)).mem = [(4, -3)] := by
  decide

/-- V-M-6 and V-M-12. -/
theorem test_store_bounds_and_ip :
    (after 0x00000010000000050003 (start 0)).fault = some ⟨.memoryOutOfBounds, 16⟩ ∧
    (after 0x000000000000000F0043 (start 3)).cell 0 = 3 := by
  decide

/-- V-AR-1 and V-AR-30. -/
theorem test_add :
    (after 0x000000010000000101C4 ((start 0).setX 1 21)).getX 1 = 42 ∧ (after 0x000000020000000F0F44 (start 4)).ip = 7 := by
  decide

/-- V-AR-4 to V-AR-6. -/
theorem test_add_wraps :
    aluAdd 32 2147483647 1 = -2147483648 ∧ aluAdd 32 (-2147483648) (-1) = 2147483647 ∧
    aluAdd 32 2147483647 2147483647 = -2 := by
  decide

/-- V-AR-19 to V-AR-21 and V-AR-27. -/
theorem test_mul_wraps :
    aluMul 32 65536 65536 = 0 ∧ aluMul 32 65536 32768 = -2147483648 ∧ aluMul 32 46341 46341 = -2147479015 ∧
    aluMul 64 3037000500 3037000500 = -9223372036709301616 := by
  decide

/-- V-AR-29. -/
theorem test_mul : (after 0x000000010000000101C5 ((start 0).setX 1 (-12))).getX 1 = 144 := by
  decide

/-- V-AR-9: first source minus second. -/
theorem test_sub : (after 0x00000005000000010006 (start 0)).getX 0 = -4 := by
  decide

/-- V-AR-10 to V-AR-13. -/
theorem test_sub_wraps :
    aluSub 32 0 (-2147483648) = -2147483648 ∧ aluSub 32 (-2147483648) 1 = 2147483647 ∧
    aluSub 32 2147483647 (-2147483648) = -1 ∧ aluSub 32 (-2147483648) 2147483647 = 1 := by
  decide

/-- V-IO-1 and V-IO-4. -/
theorem test_read :
    (after 0x7 ((start 0).withInput [7, 8])).input = [8] ∧ (after 0xF07 ((start 0).withInput [1])).ip = 2 := by
  decide

/-- V-IO-2 and V-IO-5. -/
theorem test_read_errors :
    (after 0x7 (start 0)).fault = some ⟨.inputExhausted, 0⟩ ∧ (after 0x1007 ((start 0).withInput [9])).input = [9] := by
  decide

/-- V-IO-7 and V-IO-8. -/
theorem test_write :
    (after 0x00000000FFFFFFF90008 ((start 0).emit 1)).output = [1, -7] ∧
    (after 0x000000000000000F0048 (start 5)).output = [5] := by
  decide

/-- V-J-1 to V-J-3. -/
theorem test_jump_zero :
    [0, 1, -1].map (fun v => (after 0x00000003000000010049 ((start 5).setX 1 v)).ip) = [3, 6, 6] := by
  decide

/-- V-J-14 and V-J-15. -/
theorem test_jump_zero_register :
    (after 0x00000003000000000089 ((start 0).setX 3 2)).ip = 2 ∧ (after 0x0000000F000000000089 (start 4)).ip = 4 := by
  decide

/-- V-J-4 to V-J-6, V-J-10 and V-J-12. -/
theorem test_jump_pos :
    [0, 1, -1, 2147483647, -2147483648].map (fun v => (after 0x00000003000000010059 ((start 5).setX 1 v)).ip) =
      [6, 3, 6, 3, 6] := by
  decide

/-- V-J-7 to V-J-9 and V-J-11. -/
theorem test_jump_neg :
    [0, 1, -1, -2147483648].map (fun v => (after 0x00000003000000010069 ((start 5).setX 1 v)).ip) = [6, 6, 3, 3] := by
  decide

/-- The five results under the last table of 2.1. -/
theorem test_step_bad_indices :
    [0x00000000000000100041, 0x00000000000000001001, 0x00000000FFFFFFFF0044, 0x0000000000000010C841,
      0x00000063000000000099].map (fun w => (after w (start 0)).fault) =
    [some ⟨.registerOutOfRange, 16⟩, some ⟨.registerOutOfRange, 16⟩, some ⟨.registerOutOfRange, -1⟩,
      some ⟨.registerOutOfRange, 16⟩, some ⟨.registerOutOfRange, 99⟩] := by
  decide

/-- V-H-1 to V-H-3. -/
theorem test_halt :
    [stepResult State.reset, stepResult (echo 2), stepResult (echo (-1))] = [some .halted, some .halted, some .halted] ∧
    (afterStep (echo 2)).ip = 2 := by
  decide

/-- V-H-5, V-H-7 and V-H-8. -/
theorem test_requests_not_performed :
    stepResult State.reset.halt = some (.error ⟨.stepAfterHalt, 0⟩) ∧
    stepResult (State.reset.raise ⟨.memoryOutOfBounds, 16⟩) = some (.error ⟨.memoryOutOfBounds, 16⟩) ∧
    stepResult (fetching 0 State.reset) = some (.error ⟨.illegalInstruction, 0⟩) := by
  decide

/-- Writing the value an unlisted cell reads as removes the entry. -/
theorem test_memory_canonical : Memory.write [(1, 5), (3, 7)] 3 0 = [(1, 5)] ∧ Memory.write [(3, 7)] 1 5 = [(1, 5), (3, 7)] := by
  decide

/-- The statuses of R141 with the error of V-H-5, which is not recorded. -/
theorem test_control_port :
    controlOut State.reset.halt = some (2, ⟨true, false, 5, 0⟩) ∧ controlOut State.reset = some (1, ⟨true, false, 0, 0⟩) := by
  decide

/-- Vector S4 assembled: text to words (30_encoding.md Part C). -/
def wordsOf (text : String) : Option (List (InstrWord 32)) :=
  match assemble 32 text.toList with
  | .ok p => some (programWords 32 p)
  | .error _ => none

theorem test_assemble :
    wordsOf "STORE 99, 3\n# the cell\n\nLOAD 3, r0\nWRITE r0\n" =
      some [0x00000003000000630003, 0x00000000000000030002, 0x00000000000000000048] := by
  decide

/-! ### Witnesses: a state and operands that meet the hypotheses of each statement -/

/-- A state about to run `CP 1, r2`, with registers, a cell and input set, inside the invariant. -/
def sample : State :=
  (((State.resetWith ⟨32, 16, [0x00000000000000010201]⟩ [7, 8]).setX 1 (-5)).setX 2 15).setCell 15 40

theorem sample_inv : sample.Inv where
  config := by decide
  registers := by decide
  memoryForm := by decide
  memoryCells := by decide
  inputItems := by decide
  outputItems := by decide
  haltedOutside := by decide
  faultLegal := by simp [sample, State.resetWith]

theorem witness_DecodeAndEncodeAreInverse :
    (Instr.sub (.lit 2147483647) (.reg (-2147483648)) 255).wf 32 = true ∧
    decode (xlen := 32) 0x00000063000000000099 = .ok (.jumpPos (.lit 0) (.reg 99)) := ⟨by decide, rfl⟩

theorem witness_MatchMaskRowsSelectTheDecodedForm :
    decode (xlen := 32) 0x00000000000000000007 = .ok (.read 0) ∧ (opcodeRows 32)[6]? = some (rowOf 32 7 0 true true false true true) ∧
    decode (xlen := 32) 0x00000000000000000039 = .error .jumpCondition := ⟨rfl, rfl, rfl⟩

theorem witness_SerialisedWordsReadBack :
    0 < wordBytes 32 ∧ 9 < wordBytes 32 ∧ wordBytes 33 = 11 ∧
    Fits 32 (-2147483648) ∧ Fits 32 2147483647 ∧ 3 < cellBytes 32 ∧ cellBytes 33 = 5 := by decide

theorem witness_ValueResolvesSourceOperands :
    ((-1 : Int) < 0 ∨ (15 : Int) < -1) ∧ ((16 : Int) < 0 ∨ (15 : Int) < 16) ∧
    sample.Inv ∧ (Operand.reg 15).wf 32 = true ∧ value sample (.reg 15) = .ok 0 :=
  ⟨by decide, by decide, sample_inv, by decide, rfl⟩

theorem witness_TargetResolvesRegisterIndices : ((-1 : Int) < 0 ∨ (15 : Int) < -1) ∧ ((16 : Int) < 0 ∨ (15 : Int) < 16) := by
  decide

theorem witness_ConditionsClassifyEveryInteger : 32 ≤ 32 := by decide

theorem witness_WrapIsTheUniqueCongruentWord : 1 ≤ 1 ∧ wrap 1 1 = -1 ∧ wrap 32 2147483648 = -2147483648 := by decide

theorem witness_BoundaryResultsOfTheAlu :
    Fits 32 2147483647 ∧ Fits 32 (-2147483647) ∧ (-2147483647 : Int) ≠ minWord 32 ∧
    ((0 : Int) < 46340 ∧ Fits 32 (46340 * 46340)) ∧ ((-1 : Int) < 0 ∧ Fits 32 (2147483647 * -1)) ∧
    Fits 32 (-3 * -7) ∧ 32 % 2 = 0 := by
  decide

theorem witness_CpWritesTheSourceValue :
    value sample (.reg 1) = .ok (-5) ∧ target sample 0 = .ok 0 ∧ target sample 15 = .ok 15 := ⟨rfl, rfl, rfl⟩

theorem witness_LoadWritesTheAddressedCell :
    value sample (.reg 2) = .ok 15 ∧ target sample 15 = .ok 15 ∧ (15 : Int) < sample.cfg.memCap ∧
    value sample (.lit 0) = .ok 0 := ⟨rfl, rfl, by decide, rfl⟩

theorem witness_StoreWritesTheAddressedCell :
    sample.mem.wf = true ∧ value sample (.reg 1) = .ok (-5) ∧ value sample (.reg 2) = .ok 15 ∧
    (15 : Int) < sample.cfg.memCap ∧ value sample (.lit 0) = .ok 0 := ⟨rfl, rfl, rfl, by decide, rfl⟩

theorem witness_AddWritesTheWrappedSum :
    value sample (.reg 1) = .ok (-5) ∧ value sample (.lit 2147483647) = .ok 2147483647 ∧ target sample 15 = .ok 15 :=
  ⟨rfl, rfl, rfl⟩

theorem witness_MulWritesTheWrappedProduct :
    value sample (.reg 1) = .ok (-5) ∧ value sample (.reg 1) = .ok (-5) ∧ target sample 1 = .ok 1 := ⟨rfl, rfl, rfl⟩

theorem witness_SubWritesTheWrappedDifference :
    value sample (.lit (-2147483648)) = .ok (-2147483648) ∧ value sample (.reg 1) = .ok (-5) ∧ target sample 0 = .ok 0 :=
  ⟨rfl, rfl, rfl⟩

theorem witness_ReadConsumesTheNextItem : target sample 15 = .ok 15 ∧ sample.input = 7 :: [8] := ⟨rfl, rfl⟩

theorem witness_WriteAppendsToTheOutput : value sample (.reg 15) = .ok 0 := rfl

theorem witness_JumpTakesOrAdvances :
    value sample (.reg 1) = .ok (-5) ∧ value sample (.lit (-2147483648)) = .ok (-2147483648) ∧
    evaluate .negative (-5) = true ∧ evaluate .positive (-5) = false := ⟨rfl, rfl, rfl, rfl⟩

theorem witness_SourcesAreReadBeforeTheTargetIsWritten :
    value sample (.reg 15) = .ok 0 ∧ sample.ValidAddress (sample.getX 2) ∧ sample.ValidAddress (sample.getX 15) :=
  ⟨rfl, by decide, by decide⟩

/-- STORE 99, 3 and LOAD 3, r0, the first two words of vector S4. -/
def storeLoad : State := State.resetWith ⟨32, 16, [0x00000003000000630003, 0x00000000000000030002]⟩ []

theorem witness_LoadReturnsTheValueLastStored :
    writesTo 3 (transactionTrace 1 storeLoad) = [99] ∧
    value (afterSteps 1 storeLoad) (.lit 3) = .ok 3 ∧ target (afterSteps 1 storeLoad) 15 = .ok 15 ∧
    (afterSteps 1 storeLoad).ValidAddress 3 ∧
    storeLoad.mem.wf = true ∧ exec (.store (.lit 99) (.lit 3)) storeLoad = .next (storeLoad.setCell 3 99).advance ∧
    value (storeLoad.setCell 3 99).advance (.lit 3) = .ok 3 :=
  ⟨by decide, rfl, rfl, by decide, rfl, rfl, rfl⟩

/-- `ADD r15, 0, r0` at index 1, the last of a program. -/
def addIp : State := (State.resetWith ⟨32, 16, [0, 0x000000000000000F0044]⟩ []).setIp 1

theorem witness_SourceRegister15ReadsTheOwnIndex :
    addIp.Running ∧ addIp.IpInProgram ∧ addIp.cfg.wf = true ∧
    addIp.fetch = some (encode addIp.cfg.xlen (.add (.reg 15) (.lit 0) 0)) := ⟨⟨rfl, rfl⟩, by decide, by decide, rfl⟩

theorem witness_WritingRegister15LandsOnePast :
    value sample (.reg 2) = .ok 15 ∧ value sample (.reg 1) = .ok (-5) ∧ sample.ValidAddress 15 ∧ sample.input = 7 :: [8] :=
  ⟨rfl, rfl, by decide, rfl⟩

theorem witness_IpWrapsAtTheTopAndHalts :
    (start 2147483647).cfg.wf = true ∧ (start 2147483647).ip = maxWord 32 ∧ (start 2147483647).Running ∧
    ¬ (start 2147483647).IpInProgram ∧ ¬ (echo 2).IpInProgram ∧ ¬ (echo (-1)).IpInProgram :=
  ⟨by decide, by decide, ⟨rfl, rfl⟩, by decide, by decide, by decide⟩

/-- `JUMP zero, 0, k` and `WRITE 1` (vector S3), the jump's word given. -/
def jumpOut (w : InstrWord 32) : State := State.resetWith ⟨32, 16, [w, 0x00000000000000010008]⟩ []

theorem witness_JumpTargetsAreAbsoluteAndUnchecked :
    (jumpOut 0x00000002000000000009).Running ∧
    (jumpOut 0x00000002000000000009).fetch = some 0x00000002000000000009 ∧
    decode (xlen := 32) 0x00000002000000000009 = .ok (Instr.jump .zero (.lit 0) (.lit 2)) ∧
    ¬ (2 : Int) < (jumpOut 0x00000002000000000009).cfg.plen ∧
    decode (xlen := 32) 0xFFFFFFFB000000000009 = .ok (Instr.jump .zero (.lit 0) (.lit (-5))) ∧
    evaluate .zero 0 = true := ⟨⟨rfl, rfl⟩, rfl, rfl, by decide, rfl, rfl⟩

theorem witness_JumpZeroOnLiteralZeroAlwaysTakes : value sample (.reg 2) = .ok 15 := rfl

theorem witness_JumpResolvesAddrEvenWhenNotTaken :
    value sample (.lit 0) = .ok 0 ∧ evaluate .positive 0 = false ∧ ((16 : Int) < 0 ∨ (15 : Int) < 16) ∧
    ((-1 : Int) < 0 ∨ (15 : Int) < -1) := ⟨rfl, rfl, by decide, by decide⟩

theorem witness_LeftmostBadRegisterIndexIsReported :
    (Instr.add (.reg 16) (.reg (-1)) 200).firstBadIndex = some 16 ∧ (Instr.add (.reg 15) (.reg 0) 16).firstBadIndex = some 16 ∧
    (Instr.load (.lit 16) 15).firstBadIndex = none ∧ sample.fault = none ∧
    exec (.load (.lit 16) 15) sample = .next (sample.raise ⟨.memoryOutOfBounds, 16⟩) := ⟨rfl, rfl, rfl, rfl, rfl⟩

theorem witness_OutOfBoundsAddressesRaise :
    value sample (.lit 16) = .ok 16 ∧ (sample.cfg.memCap : Int) ≤ 16 ∧ value sample (.lit (-1)) = .ok (-1) ∧
    target sample 15 = .ok 15 ∧ value sample (.reg 1) = .ok (-5) ∧
    target sample 16 = .error ⟨.registerOutOfRange, 16⟩ ∧ value sample (.reg 16) = .error ⟨.registerOutOfRange, 16⟩ :=
  ⟨rfl, by decide, rfl, rfl, rfl, rfl, rfl⟩

theorem witness_ReadOnEmptyInputRaises :
    (start 0).input = [] ∧ target (start 0) 0 = .ok 0 ∧ target (start 0) 16 = .error ⟨.registerOutOfRange, 16⟩ :=
  ⟨rfl, rfl, rfl⟩

theorem witness_OnlyTheListedInstructionsRaise :
    (start 0).fault = none ∧
    exec (.read 0) (start 0) = .next ((start 0).raise ⟨.inputExhausted, 0⟩) ∧
    exec (.store (.lit 5) (.lit 16)) (start 0) = .next ((start 0).raise ⟨.memoryOutOfBounds, 16⟩) := ⟨rfl, rfl, rfl⟩

theorem witness_RaisingChangesOnlyTheFaultRecord :
    (fetching 0x7 State.reset).fault = none ∧
    step (fetching 0x7 State.reset) = .next ((fetching 0x7 State.reset).raise ⟨.inputExhausted, 0⟩) ∧
    State.reset.halt.halted = true ∧ State.reset.halt.fault = none := ⟨rfl, rfl, rfl, rfl⟩

theorem witness_ErrorsAreReportedInPriorityOrder :
    State.reset.halt.halted = true ∧ ¬ State.reset.IpInProgram ∧
    (fetching 0x39 State.reset).fetch = some 0x39 ∧ legal (xlen := 32) 0x39 = false ∧
    (fetching 0x1007 State.reset).fetch = some 0x1007 ∧ decode (xlen := 32) 0x1007 = .ok (.read 16) ∧
    (Instr.read 16).firstBadIndex = some 16 ∧
    (Instr.read 0).firstBadIndex = none ∧ stepResult (fetching 0x7 State.reset) = some (.error ⟨.inputExhausted, 0⟩) ∧
    stepResult (fetching 0x00000000000000100102 State.reset) = some (.error ⟨.memoryOutOfBounds, 16⟩) :=
  ⟨rfl, by decide, rfl, rfl, rfl, rfl, rfl, rfl, rfl, rfl⟩

theorem witness_StepRunsTheDecodedInstruction :
    (echo 1).fault = none ∧ (echo 1).halted = false ∧ 0 ≤ (echo 1).ip ∧
    (echo 1).cfg.program[(echo 1).ip.toNat]? = some 0x00000000000000000048 ∧
    decode (xlen := 32) 0x00000000000000000048 = .ok (.write (.reg 0)) := ⟨rfl, rfl, by decide, rfl, rfl⟩

theorem witness_IpOutsideTheProgramHalts :
    (echo 2).fault = none ∧ (echo 2).halted = false ∧ ((echo 2).cfg.plen : Int) ≤ (echo 2).ip ∧ (echo (-1)).ip < 0 ∧
    Config.reference.plen = 0 := ⟨rfl, rfl, by decide, by decide, rfl⟩

theorem witness_IllegalWordsRaiseAndValidatedProgramsDoNot :
    (fetching 0 State.reset).fault = none ∧ (fetching 0 State.reset).halted = false ∧
    (fetching 0 State.reset).fetch = some 0 ∧ legal (xlen := 32) 0 = false ∧
    programLegal (fetching 0x7 State.reset).cfg.program = true ∧
    step (fetching 0x7 State.reset) = .next ((fetching 0x7 State.reset).raise ⟨.inputExhausted, 0⟩) :=
  ⟨rfl, rfl, rfl, rfl, rfl, rfl⟩

theorem witness_StepAfterHaltChangesNothing :
    State.reset.halt.halted = true ∧ State.reset.halt.fault = none ∧ (fetching 0x7 State.reset).Running ∧
    run 2 (fetching 0x7 State.reset) =
      .error ⟨.inputExhausted, 0⟩ ((fetching 0x7 State.reset).raise ⟨.inputExhausted, 0⟩) := ⟨rfl, rfl, ⟨rfl, rfl⟩, rfl⟩

theorem witness_FaultedStateIsLeftByResetOnly :
    (State.reset.raise ⟨.memoryOutOfBounds, 16⟩).fault = some ⟨.memoryOutOfBounds, 16⟩ := rfl

theorem witness_AStepIsTakenExactlyWhileRunning :
    State.reset.Running ∧ step State.reset = .next State.reset.halt ∧ ¬ State.reset.halt.Running :=
  ⟨⟨rfl, rfl⟩, rfl, fun h => Bool.noConfusion h.1⟩

theorem witness_HaltedIsSetByTheHaltCheckOnly :
    step State.reset = .next State.reset.halt ∧ step (echo 0) = .next (afterStep (echo 0)) ∧
    State.reset.halt.halted = true := ⟨rfl, rfl, rfl⟩

theorem witness_StepKeepsTheInvariant : sample.Inv ∧ step sample = .next (sample.setX 2 1).advance := ⟨sample_inv, rfl⟩

theorem witness_ResetMeetsTheInvariant :
    (Config.mk 32 2147483648 [0]).wf = true ∧ ∀ v ∈ [minWord 32, maxWord 32], Fits 32 v := by
  decide

theorem witness_NoStepChangesTheConfiguration : exec (.write (.lit 1)) sample = .next (sample.emit 1).advance := rfl

theorem witness_UnnamedRegistersPlayNoPart : (14 : Fin 16) ≠ 15 ∧ ¬ Mentions (.add (.reg 13) (.reg 15) 0) 14 := by
  refine ⟨by decide, ?_⟩
  unfold Mentions
  decide

theorem witness_OutputIsNeitherReadNorShortened : step (echo 1) = .next (afterStep (echo 1)) ∧ (afterStep (echo 1)).output = [0] :=
  ⟨rfl, rfl⟩

theorem witness_LaterInputPlaysNoPartInAStep :
    step (echo 0) = .next (afterStep (echo 0)) ∧ (afterStep (echo 0)).fault = none ∧ (echo 0).input = [7] ∧
    step (fetching 0x00000000000000100102 State.reset) =
      .next ((fetching 0x00000000000000100102 State.reset).raise ⟨.memoryOutOfBounds, 16⟩) := ⟨rfl, rfl, rfl, rfl⟩

theorem witness_DataPortCarriesEveryAccess :
    storeLoad.mem.wf = true ∧ (transactions storeLoad).data = some (.write 3 99) ∧
    (afterSteps 1 storeLoad).mem.wf = true ∧ (transactions (afterSteps 1 storeLoad)).data = some (.read 3 99) ∧
    (transactions sample).data = none ∧ sample.mem.wf = true ∧
    currentInstr storeLoad = some (.store (.lit 99) (.lit 3)) ∧
    currentInstr (afterSteps 1 storeLoad) = some (.load (.lit 3) 0) := by
  decide

theorem witness_DataPortCarriesEveryAccess_operands :
    value storeLoad (.lit 99) = .ok 99 ∧ value storeLoad (.lit 3) = .ok 3 ∧ storeLoad.ValidAddress 3 ∧
    value (afterSteps 1 storeLoad) (.lit 3) = .ok 3 ∧ target (afterSteps 1 storeLoad) 0 = .ok 0 ∧
    (afterSteps 1 storeLoad).ValidAddress 3 := ⟨rfl, rfl, by decide, rfl, rfl, by decide⟩

theorem witness_BinaryStepRefinesTheAbstractStep :
    1 ≤ (echo 0).cfg.xlen ∧ (∀ i ∈ [Instr.read 0, Instr.write (.reg 0)], i.wf (echo 0).cfg.xlen = true) ∧
    (echo 0).cfg.program = programWords (echo 0).cfg.xlen [.read 0, .write (.reg 0)] := ⟨by decide, by decide, rfl⟩

theorem witness_AbstractStepNeverMeetsAnIllegalInstruction :
    State.reset.fault = none ∧ stepA [.read 0] State.reset = .next (State.reset.raise ⟨.inputExhausted, 0⟩) := ⟨rfl, rfl⟩

theorem witness_RunEndsHaltedOrFaulted :
    (echo 0).Running ∧ run 3 (echo 0) = .halted (afterSteps 3 (echo 0)) ∧ run 1 (echo 0) = .running (afterSteps 1 (echo 0)) ∧
    run 2 (fetching 0x7 State.reset) =
      .error ⟨.inputExhausted, 0⟩ ((fetching 0x7 State.reset).raise ⟨.inputExhausted, 0⟩) := ⟨⟨rfl, rfl⟩, rfl, rfl, rfl⟩

theorem witness_ControlPortShowsTheCause :
    State.reset.fault = none ∧ (State.reset.raise ⟨.memoryOutOfBounds, 16⟩).fault = some ⟨.memoryOutOfBounds, 16⟩ ∧
    stepResult State.reset.halt = some (.error ⟨.stepAfterHalt, 0⟩) ∧
    stepResult (State.reset.raise ⟨.memoryOutOfBounds, 16⟩) = some (.error ⟨.memoryOutOfBounds, 16⟩) ∧
    stepResult (fetching 0x7 State.reset) = some (.error ⟨.inputExhausted, 0⟩) := ⟨rfl, rfl, rfl, rfl, rfl⟩

theorem witness_AssemblingTheTextGivesTheInstruction :
    (Instr.sub (.lit (-2147483648)) (.reg 15) 0).wf 32 = true ∧
    (Instr.sub (.lit (-2147483648)) (.reg 15) 0).indicesInRange = true ∧
    instrText (.sub (.lit (-2147483648)) (.reg 15) 0) = "SUB -2147483648, r15, r0".toList := by
  decide

theorem witness_LiteralsThatDoNotFitAreRejected :
    Operand.lit 2147483648 ∈ (Instr.store (.reg 1) (.lit 2147483648)).sources ∧ ¬ Fits 32 2147483648 ∧
    ¬ Fits 32 (-2147483649) := by
  decide

theorem witness_RegisterTokensAreR0ToR15 :
    registerToken ['r', '1', '5'] = some 15 ∧ registerToken ['r', '1', '6'] = none ∧ registerToken ['r', '-', '1'] = none := by
  decide

theorem witness_BlankLinesAreNotCounted : assembleLine 32 "  # only a comment".toList = .ok none := rfl

end Sys2Proof.Tests
end

section
/-!
SUPPORT and PROOFS. The state family (10_state.md): reset values, the ip outside the program, and the halted flag.

`CommutesWithExec` says once that a change of state which no instruction looks at commutes with every instruction.
-/

namespace Sys2Proof.Machine

/-! ### Reset values (R26) -/

section Reset

variable (cfg : Config) (input : List Int)

@[simp] theorem State.resetWith_getX (r : Fin 16) : (State.resetWith cfg input).getX r = 0 := by
  simp [State.getX, State.resetWith]

@[simp] theorem State.resetWith_ip : (State.resetWith cfg input).ip = 0 := State.resetWith_getX cfg input 15

@[simp] theorem State.resetWith_cell (a : Int) : (State.resetWith cfg input).cell a = 0 := ite_self 0

end Reset

/-- Settles O45: register by register and cell by cell; the other fields are those `State.resetWith` writes. -/
theorem resetZeroesRegistersAndMemory : Obligations.ResetZeroesRegistersAndMemory := fun cfg input =>
  ⟨State.resetWith_getX cfg input, State.resetWith_ip cfg input, State.resetWith_cell cfg input, rfl, rfl, rfl, rfl, rfl⟩

/-! ### The ends of the value range -/

theorem minWord_neg (xlen : Nat) : minWord xlen < 0 := neg_neg_of_pos (by positivity)

theorem fits_minWord (xlen : Nat) : Fits xlen (minWord xlen) := by
  have h : (0 : Int) < 2 ^ (xlen - 1) := by positivity
  refine ⟨le_rfl, ?_⟩
  simp only [minWord, maxWord]
  omega

/-- MAX + 1 is MIN + 2^XLEN, and so wraps to MIN. -/
theorem wrap_maxWord_add_one {xlen : Nat} (h : 1 ≤ xlen) : wrap xlen (maxWord xlen + 1) = minWord xlen := by
  have hsum : maxWord xlen + 1 = minWord xlen + (2 ^ xlen : Nat) := by
    push_cast
    rw [two_pow_succ_pred h, minWord, maxWord]
    ring
  calc wrap xlen (maxWord xlen + 1)
      = wrap xlen (minWord xlen) := by rw [hsum, wrap, Int.add_bmod_right, wrap]
    _ = minWord xlen := wrap_of_fits h (fits_minWord xlen)

theorem Config.one_le_xlen {c : Config} (h : c.wf = true) : 1 ≤ c.xlen := by
  simp only [Config.wf, Bool.and_eq_true, decide_eq_true_eq] at h
  omega

/-! ### Step requests that run no instruction -/

theorem afterStep_of_outside {s : State} (hs : s.Running) (h : ¬ s.IpInProgram) : afterStep s = s.halt := by
  simp only [afterStep, step_of_outside hs.2 hs.1 h]

theorem stepResult_of_outside {s : State} (hs : s.Running) (h : ¬ s.IpInProgram) : stepResult s = some .halted := by
  simp [stepResult, step_of_outside hs.2 hs.1 h, resultOf, hs.2]

/-- A request in a halted state is not performed, with a recorded fault or without (R93, R94). -/
theorem afterStep_of_halted {s : State} (h : s.halted = true) : afterStep s = s := by
  cases hf : s.fault with
  | none => simp only [afterStep, step_of_halted hf h]
  | some e => simp only [afterStep, step_of_fault hf]

/-- Settles O25: MAX + 1 wraps to MIN, which is negative and so outside every program; and outside the program a step is
the halt check. -/
theorem ipWrapsAtTheTopAndHalts : Obligations.IpWrapsAtTheTopAndHalts := by
  refine ⟨fun s hwf hip => ?_, fun s hs hout => ⟨stepResult_of_outside hs hout, ?_⟩⟩
  · have hmin : s.advance.ip = minWord s.cfg.xlen := by
      rw [State.advance_ip, hip, wrap_maxWord_add_one (Config.one_le_xlen hwf)]
    have hout : ¬ s.advance.IpInProgram := fun h => (minWord_neg s.cfg.xlen).not_ge (hmin ▸ h.1)
    exact ⟨hmin, fun hs => step_of_outside hs.2 hs.1 hout⟩
  · rw [afterStep_of_outside hs hout, State.halt_ip]

/-! ### Changes of state that no instruction looks at -/

/-- A change of state that leaves alone what instructions read, and that the writes of instructions leave alone. What it
does to the input is `exec_comm`'s own hypothesis, since READ alone looks at the input. -/
structure CommutesWithExec (f : State → State) : Prop where
  cfg : ∀ s, (f s).cfg = s.cfg
  getX : ∀ s j, (f s).getX j = s.getX j
  cell : ∀ s a, (f s).cell a = s.cell a
  setX : ∀ s j v, (f s).setX j v = f (s.setX j v)
  setCell : ∀ s a v, (f s).setCell a v = f (s.setCell a v)
  emit : ∀ s v, (f s).emit v = f (s.emit v)
  raise : ∀ s e, (f s).raise e = f (s.raise e)

namespace CommutesWithExec

variable {f : State → State} (hf : CommutesWithExec f) (s : State)
include hf

theorem slot_eq (i : Int) : slot (f s) i = slot s i := by
  simp only [slot, badRegister, hf.cfg]

theorem target_eq (t : Int) : target (f s) t = target s t := hf.slot_eq s t

theorem value_eq (o : Operand) : value (f s) o = value s o := by
  cases o with
  | lit v => rfl
  | reg i => simp only [value, hf.slot_eq, hf.getX]

theorem memRead_eq (a : Int) : memRead (f s) a = memRead s a := by
  simp only [memRead, State.ValidAddress, hf.cfg, hf.cell]

theorem memWrite_eq (a v : Int) : memWrite (f s) a v = (memWrite s a v).map f := by
  simp only [memWrite, State.ValidAddress, hf.cfg, hf.setCell]
  split <;> rfl

theorem setIp_comm (v : Int) : (f s).setIp v = f (s.setIp v) := hf.setX s 15 v

theorem advance_comm : (f s).advance = f s.advance := by
  simp only [State.advance, State.ip, hf.cfg, hf.getX, hf.setIp_comm]

/-- Writing a register and advancing commutes. -/
theorem next_setX_advance (r : Fin 16) (v : Int) :
    (.next ((f s).setX r v).advance : StepOutcome) = mapNext f (.next (s.setX r v).advance) := by
  rw [hf.setX, hf.advance_comm, mapNext]

/-- Going on with a checked value commutes when what follows does; `g` is what the change makes of the checked value. -/
theorem attempt_map {α β : Type} {r : Except FaultRecord α} {g : α → β} {k : α → StepOutcome} {k' : β → StepOutcome}
    (hk : ∀ a, k' (g a) = mapNext f (k a)) : attempt (f s) (r.map g) k' = mapNext f (attempt s r k) := by
  cases r with
  | ok a => exact hk a
  | error e => exact congrArg Host.Outcome.next (hf.raise s e)

theorem attempt_comm {α : Type} {r : Except FaultRecord α} {k k' : α → StepOutcome}
    (hk : ∀ a, k' a = mapNext f (k a)) : attempt (f s) r k' = mapNext f (attempt s r k) := by
  simpa using hf.attempt_map s (r := r) (g := id) hk

theorem arithmetic_comm (g : Int → Int → Int) (src1 src2 : Operand) (tgt : Int) :
    arithmetic g src1 src2 tgt (f s) = mapNext f (arithmetic g src1 src2 tgt s) := by
  simp only [arithmetic, hf.value_eq, hf.target_eq]
  exact hf.attempt_comm s fun p => hf.attempt_comm s fun q => hf.attempt_comm s fun t => hf.next_setX_advance s t (g p q)

theorem jumpWhen_comm (c : Condition) (src addr : Operand) :
    jumpWhen c src addr (f s) = mapNext f (jumpWhen c src addr s) := by
  simp only [jumpWhen, hf.value_eq]
  refine hf.attempt_comm s fun v => hf.attempt_comm s fun a => ?_
  rw [hf.setIp_comm, hf.advance_comm, mapNext, apply_ite f]

/-- The change commutes with every instruction; for READ it must commute with taking an item. -/
theorem exec_comm (i : Instr)
    (hin : ∀ tgt, i = .read tgt → takeInput (f s) = (takeInput s).map (Prod.map id f)) :
    exec i (f s) = mapNext f (exec i s) := by
  cases i with
  | cp src tgt =>
    simp only [exec, execCp, hf.value_eq, hf.target_eq]
    exact hf.attempt_comm s fun v => hf.attempt_comm s fun t => hf.next_setX_advance s t v
  | load memref tgt =>
    simp only [exec, execLoad, hf.value_eq, hf.target_eq, hf.memRead_eq]
    exact hf.attempt_comm s fun a => hf.attempt_comm s fun t => hf.attempt_comm s fun v => hf.next_setX_advance s t v
  | store src memref =>
    simp only [exec, execStore, hf.value_eq, hf.memWrite_eq]
    exact hf.attempt_comm s fun v => hf.attempt_comm s fun a => hf.attempt_map s fun t => by rw [hf.advance_comm, mapNext]
  | add src1 src2 tgt =>
    simp only [exec, execAdd, hf.cfg]
    exact hf.arithmetic_comm s _ src1 src2 tgt
  | mul src1 src2 tgt =>
    simp only [exec, execMul, hf.cfg]
    exact hf.arithmetic_comm s _ src1 src2 tgt
  | sub src1 src2 tgt =>
    simp only [exec, execSub, hf.cfg]
    exact hf.arithmetic_comm s _ src1 src2 tgt
  | read tgt =>
    simp only [exec, execRead, hf.target_eq, hin tgt rfl]
    exact hf.attempt_comm s fun t => hf.attempt_map s fun p => hf.next_setX_advance p.2 t p.1
  | write src =>
    simp only [exec, execWrite, hf.value_eq]
    exact hf.attempt_comm s fun v => by rw [hf.emit, hf.advance_comm, mapNext]
  | jumpZero src addr => exact hf.jumpWhen_comm s .zero src addr
  | jumpPos src addr => exact hf.jumpWhen_comm s .positive src addr
  | jumpNeg src addr => exact hf.jumpWhen_comm s .negative src addr

end CommutesWithExec

/-! ### The halted flag (R16) -/

/-- `halted` set to `b`, the change of state R16 says no instruction notices. -/
def State.withHalted (b : Bool) (s : State) : State := { s with halted := b }

theorem commutesWithExec_withHalted (b : Bool) : CommutesWithExec (State.withHalted b) where
  cfg _ := rfl
  getX _ _ := rfl
  cell _ _ := rfl
  setX _ _ _ := rfl
  setCell _ _ _ := rfl
  emit _ _ := rfl
  raise _ _ := rfl

theorem takeInput_withHalted (b : Bool) (s : State) :
    takeInput (s.withHalted b) = (takeInput s).map (Prod.map id (State.withHalted b)) := by
  cases h : s.input with
  | nil => rw [takeInput_nil h, takeInput_nil (s := s.withHalted b) h, Except.map]
  | cons v rest => rw [takeInput_cons h, takeInput_cons (s := s.withHalted b) h, Except.map]; rfl

theorem exec_withHalted (i : Instr) (s : State) (b : Bool) :
    exec i (s.withHalted b) = mapNext (State.withHalted b) (exec i s) :=
  (commutesWithExec_withHalted b).exec_comm s i fun _ _ => takeInput_withHalted b s

theorem Effect.halted_eq {i : Instr} {s t : State} (h : Effect i s t) : t.halted = s.halted := by
  cases h <;> rfl

/-- A step that is taken leaves `halted` set exactly when it was the halt. -/
theorem step_halted_iff {s t : State} (h : step s = .next t) : t.halted = true ↔ ¬ s.IpInProgram := by
  obtain ⟨-, hrun, ⟨hout, rfl⟩ | ⟨w, -, hin, ⟨-, rfl⟩ | ⟨i, -, -, he⟩⟩⟩ := step_eq_next h
  · simp [hout]
  · simp [hrun, hin]
  · simp [he.halted_eq, hrun, hin]

/-- Settles O42: the only step that ends halted is the halt, a halted state is left by no request, and setting `halted`
commutes with every instruction. -/
theorem haltedIsSetByTheHaltCheckOnly : Obligations.HaltedIsSetByTheHaltCheckOnly :=
  ⟨fun _ _ => rfl, fun _ _ => step_halted_iff, fun _ h => (afterStep_of_halted h).symm ▸ h,
    exec_withHalted⟩

end Sys2Proof.Machine
end

section
/-!
SUPPORT and PROOFS. The memory family (20_memory.md): a LOAD returns the value last stored.

A step request writes the cell its data transaction names and no other memory, so a cell follows the writes in the
trace of transactions.
-/

namespace Sys2Proof.Machine

/-! ### The instruction a request runs -/

theorem currentInstr_eq_some {s : State} {i : Instr} :
    currentInstr s = some i ↔ s.fault = none ∧ s.halted = false ∧ ∃ w, s.fetch = some w ∧ decode w = .ok i := by
  unfold currentInstr
  cases hf : s.fault with
  | some e => simp
  | none =>
    cases hh : s.halted with
    | true => simp
    | false =>
      cases hw : s.fetch with
      | none => simp
      | some w => cases hd : decode w <;> simp [hd]

/-- A request that runs an instruction goes to the state the instruction answers. -/
theorem exec_of_currentInstr {s : State} {i : Instr} (h : currentInstr s = some i) :
    exec i s = .next (afterStep s) := by
  obtain ⟨hf, hh, w, hw, hd⟩ := currentInstr_eq_some.1 h
  obtain ⟨t, ht, -⟩ := exec_effect i s
  have hs : step s = .next t := by simp [step, hf, hh, hw, hd, ht]
  simp only [afterStep, hs, ht]

/-- A request that runs no instruction is not performed, halts, or raises. -/
theorem afterStep_of_currentInstr_none {s : State} (h : currentInstr s = none) :
    afterStep s = s ∨ afterStep s = s.halt ∨ ∃ e, afterStep s = s.raise e := by
  cases hs : step s with
  | fault r => exact .inl (by simp only [afterStep, hs])
  | refused r => exact .inl (by simp only [afterStep, hs])
  | next t =>
    have ht : afterStep s = t := by simp only [afterStep, hs]
    obtain ⟨hf, hh, ⟨-, rfl⟩ | ⟨w, hw, -, ⟨-, rfl⟩ | ⟨i, hd, -, -⟩⟩⟩ := step_eq_next hs
    · exact .inr (.inl ht)
    · exact .inr (.inr ⟨_, ht⟩)
    · have hi : currentInstr s = some i := currentInstr_eq_some.2 ⟨hf, hh, w, hw, hd⟩
      simp [h] at hi

/-! ### LOAD and STORE at a valid address (R101, R102) -/

theorem exec_load {s : State} {memref : Operand} {tgt a : Int} {r : Fin 16} (ha : value s memref = .ok a)
    (hr : target s tgt = .ok r) (hb : s.ValidAddress a) :
    exec (.load memref tgt) s = .next (s.setX r (s.cell a)).advance := by
  simp only [exec, execLoad, ha, hr, memRead_ok hb, attempt_ok]

theorem exec_store {s : State} {src memref : Operand} {v a : Int} (hv : value s src = .ok v)
    (ha : value s memref = .ok a) (hb : s.ValidAddress a) :
    exec (.store src memref) s = .next (s.setCell a v).advance := by
  simp only [exec, execStore, hv, ha, memWrite_ok hb, attempt_ok]

/-- A LOAD at a valid address writes what the cell holds. -/
theorem exec_load_wroteAndAdvanced {s : State} {memref : Operand} {tgt a v : Int} {r : Fin 16}
    (ha : value s memref = .ok a) (hr : target s tgt = .ok r) (hb : s.ValidAddress a) (hv : s.cell a = v) :
    ∃ u, exec (.load memref tgt) s = .next u ∧ WroteAndAdvanced r v s u :=
  ⟨_, hv ▸ exec_load ha hr hb, wroteAndAdvanced_setX s r v⟩

/-! ### The write a step makes to memory (R143) -/

/-- The only instruction with a write transaction is a STORE whose checks have passed. -/
theorem dataTransaction_eq_write {i : Instr} {s : State} {a v : Int} :
    dataTransaction i s = some (.write a v) ↔
      ∃ src memref, i = .store src memref ∧ value s src = .ok v ∧ value s memref = .ok a ∧ s.ValidAddress a := by
  cases i with
  | store src memref =>
    simp only [dataTransaction, Instr.store.injEq]
    constructor
    · intro h
      split at h
      · next v' a' hv ha =>
        split at h
        · next hb => cases h; exact ⟨src, memref, ⟨rfl, rfl⟩, hv, ha, hb⟩
        · cases h
      · cases h
      · cases h
    · rintro ⟨_, _, ⟨rfl, rfl⟩, hv, ha, hb⟩
      simp only [hv, ha, if_pos hb]
  | load memref tgt =>
    simp only [dataTransaction, reduceCtorEq, false_and, exists_false, iff_false]
    repeat' split
    all_goals simp
  | _ => simp [dataTransaction]

/-- An instruction without a write transaction leaves memory alone. -/
theorem Effect.mem_eq {i : Instr} {s t : State} (h : Effect i s t)
    (hw : ∀ a v, dataTransaction i s ≠ some (.write a v)) : t.mem = s.mem := by
  cases h with
  | stored src memref v a hi hv ha hb => exact absurd (dataTransaction_eq_write.2 ⟨src, memref, hi, hv, ha, hb⟩) (hw a v)
  | _ => rfl

/-- The data transaction of a request is that of the instruction it runs. -/
theorem transactions_data_eq_some {s : State} {d : DataTransaction} :
    (transactions s).data = some d ↔ ∃ i, currentInstr s = some i ∧ dataTransaction i s = some d :=
  Option.bind_eq_some_iff

/-- A request with a write transaction stores it and advances. -/
theorem afterStep_of_write {s : State} {a v : Int} (h : (transactions s).data = some (.write a v)) :
    s.ValidAddress a ∧ afterStep s = (s.setCell a v).advance := by
  obtain ⟨i, hi, hd⟩ := transactions_data_eq_some.1 h
  obtain ⟨src, memref, rfl, hv, ha, hb⟩ := dataTransaction_eq_write.1 hd
  have hx := (exec_of_currentInstr hi).symm.trans (exec_store hv ha hb)
  exact ⟨hb, Host.Outcome.next.inj hx⟩

/-- A request without a write transaction leaves memory alone. -/
theorem afterStep_mem_of_no_write {s : State} (h : ∀ a v, (transactions s).data ≠ some (.write a v)) :
    (afterStep s).mem = s.mem := by
  cases hi : currentInstr s with
  | none => obtain hs | hs | ⟨e, hs⟩ := afterStep_of_currentInstr_none hi <;> rw [hs] <;> rfl
  | some i =>
    exact (effect_of_exec (exec_of_currentInstr hi)).mem_eq fun a v hd => h a v (transactions_data_eq_some.2 ⟨i, hi, hd⟩)

/-- Every step request keeps memory canonical. -/
theorem wf_afterStep {s : State} (hm : s.mem.wf = true) : (afterStep s).mem.wf = true := by
  by_cases h : ∃ a v, (transactions s).data = some (.write a v)
  · obtain ⟨a, v, hd⟩ := h
    rw [(afterStep_of_write hd).2]
    exact Memory.wf_write _ _ _ hm
  · rwa [afterStep_mem_of_no_write fun a v hd => h ⟨a, v, hd⟩]

/-! ### A cell follows the writes of the trace (R48) -/

/-- The value a step's transactions write to the cell at an address. -/
def Transactions.writeTo (t : Transactions) (a : Int) : Option Int :=
  match t.data with
  | some (.write b v) => if b = a then some v else none
  | some (.read _ _) => none
  | none => none

theorem Transactions.writeTo_of_write {t : Transactions} {b v : Int} (h : t.data = some (.write b v)) (a : Int) :
    t.writeTo a = if b = a then some v else none := by
  simp only [Transactions.writeTo, h]

theorem Transactions.writeTo_of_no_write {t : Transactions} (h : ∀ b v, t.data ≠ some (.write b v)) (a : Int) :
    t.writeTo a = none := by
  unfold Transactions.writeTo
  split
  · next b v hd => exact absurd hd (h b v)
  · rfl
  · rfl

theorem writesTo_eq_filterMap (a : Int) (trace : List Transactions) :
    writesTo a trace = trace.filterMap (·.writeTo a) := rfl

/-- The last write of a trace, with a first step more: the first step's write counts where no later one was made. -/
theorem getLast?_writesTo_cons (a c : Int) (t : Transactions) (trace : List Transactions) :
    (writesTo a (t :: trace)).getLast?.getD c = (writesTo a trace).getLast?.getD ((t.writeTo a).getD c) := by
  simp only [writesTo_eq_filterMap, List.filterMap_cons]
  cases t.writeTo a with
  | none => rfl
  | some v => simp only [List.getLast?_cons, Option.getD_some]

/-- One step request leaves a cell at what its transactions write there, else at what it held. -/
theorem cell_afterStep {s : State} (hm : s.mem.wf = true) (a : Int) :
    (afterStep s).cell a = ((transactions s).writeTo a).getD (s.cell a) := by
  by_cases h : ∃ b v, (transactions s).data = some (.write b v)
  · obtain ⟨b, v, hd⟩ := h
    obtain ⟨⟨hb, -⟩, hs⟩ := afterStep_of_write hd
    rw [hs, State.advance_cell, State.cell_setCell hm hb, Transactions.writeTo_of_write hd]
    obtain rfl | hab := eq_or_ne a b
    · simp
    · simp [hab, hab.symm]
  · have hno : ∀ b v, (transactions s).data ≠ some (.write b v) := fun b v hd => h ⟨b, v, hd⟩
    rw [Transactions.writeTo_of_no_write hno, State.cell, afterStep_mem_of_no_write hno, Option.getD_none, State.cell]

/-- A cell ends with the last value written to it, else with what it held. -/
theorem cell_afterSteps (n : Nat) {s : State} (hm : s.mem.wf = true) (a : Int) :
    (afterSteps n s).cell a = (writesTo a (transactionTrace n s)).getLast?.getD (s.cell a) := by
  induction n generalizing s with
  | zero => rfl
  | succ n ih => rw [afterSteps, transactionTrace, getLast?_writesTo_cons, ih (wf_afterStep hm), cell_afterStep hm]

/-- Settles O22: a LOAD writes what its cell holds, and that is the last write of the trace, from reset's zero on; right
after a STORE it is the stored value. -/
theorem loadReturnsTheValueLastStored : Obligations.LoadReturnsTheValueLastStored := by
  refine ⟨fun n cfg input memref tgt a r ha hr hb => ?_, fun n s a hm => cell_afterSteps n hm a,
    fun s t src memref memref' tgt v a r hm hv ha hb hst ha' hr => ?_⟩
  · refine exec_load_wroteAndAdvanced ha hr hb ?_
    rw [cell_afterSteps n (Memory.wf_reset cfg input), State.resetWith_cell]
  · obtain rfl : (s.setCell a v).advance = t := Host.Outcome.next.inj ((exec_store hv ha hb).symm.trans hst)
    refine exec_load_wroteAndAdvanced ha' hr hb ?_
    rw [State.advance_cell, State.cell_setCell hm hb.1, if_pos rfl]

end Sys2Proof.Machine
end

section
/-!
SUPPORT and PROOFS. The encoding family (30_encoding.md, Part B): the field table, and decode and encode as inverses.

`decodeFields_eq_ok` says once which fields decode to which instruction; the other direction of the round trip writes
the fields of an instruction and reads them back.
-/

namespace Sys2Proof

/-! ### The field table (R62) -/

theorem jumpOf_eq_ok {cond : BitVec 2} {u : Bool} {src addr : Operand} {i : Instr} :
    jumpOf cond u src addr = .ok i ↔
      (cond = 0 ∧ u = true ∧ i = .jumpZero src addr) ∨ (cond = 1 ∧ u = true ∧ i = .jumpPos src addr) ∨
        (cond = 2 ∧ u = true ∧ i = .jumpNeg src addr) := by
  have h : cond = 0 ∨ cond = 1 ∨ cond = 2 ∨ cond = 3 := by
    revert cond
    decide
  obtain rfl | rfl | rfl | rfl := h <;> simp [jumpOf, strict_eq_ok]

/-- Which fields decode to which instruction, a disjunct for each row of the table. -/
theorem decodeFields_eq_ok {xlen : Nat} (f : Fields xlen) (i : Instr) :
    decodeFields f = .ok i ↔
      (f.op = 1 ∧ f.cond = 0 ∧ (f.bm = 0 ∧ f.b = 0) ∧ i = .cp (operandOf f.am f.a) (targetOf f.tgt)) ∨
      (f.op = 2 ∧ f.cond = 0 ∧ (f.bm = 0 ∧ f.b = 0) ∧ i = .load (operandOf f.am f.a) (targetOf f.tgt)) ∨
      (f.op = 3 ∧ f.cond = 0 ∧ f.tgt = 0 ∧ i = .store (operandOf f.am f.a) (operandOf f.bm f.b)) ∨
      (f.op = 4 ∧ f.cond = 0 ∧ i = .add (operandOf f.am f.a) (operandOf f.bm f.b) (targetOf f.tgt)) ∨
      (f.op = 5 ∧ f.cond = 0 ∧ i = .mul (operandOf f.am f.a) (operandOf f.bm f.b) (targetOf f.tgt)) ∨
      (f.op = 6 ∧ f.cond = 0 ∧ i = .sub (operandOf f.am f.a) (operandOf f.bm f.b) (targetOf f.tgt)) ∨
      (f.op = 7 ∧ f.cond = 0 ∧ (f.am = 0 ∧ f.a = 0) ∧ (f.bm = 0 ∧ f.b = 0) ∧ i = .read (targetOf f.tgt)) ∨
      (f.op = 8 ∧ f.cond = 0 ∧ (f.bm = 0 ∧ f.b = 0) ∧ f.tgt = 0 ∧ i = .write (operandOf f.am f.a)) ∨
      (f.op = 9 ∧ f.cond = 0 ∧ f.tgt = 0 ∧ i = .jumpZero (operandOf f.am f.a) (operandOf f.bm f.b)) ∨
      (f.op = 9 ∧ f.cond = 1 ∧ f.tgt = 0 ∧ i = .jumpPos (operandOf f.am f.a) (operandOf f.bm f.b)) ∨
      (f.op = 9 ∧ f.cond = 2 ∧ f.tgt = 0 ∧ i = .jumpNeg (operandOf f.am f.a) (operandOf f.bm f.b)) := by
  -- An opcode number picks one branch of the decoder and rules out the rows of the others.
  have hop : ∀ n : BitVec 4, f.op = n ↔ f.op.toNat = n.toNat := fun n => BitVec.toNat_inj.symm
  simp only [hop]
  unfold decodeFields
  split <;> simp_all [strict_eq_ok, jumpOf_eq_ok, and_assoc]

/-- Settles O4: the fields of the word, row by row. -/
theorem decodingReadsTheFieldTable : Obligations.DecodingReadsTheFieldTable :=
  fun _ w i => decodeFields_eq_ok (fieldsOf w) i

/-! ### An instruction read from its own fields -/

/-- The instruction with every source operand and the target replaced. -/
def Instr.map (f : Operand → Operand) (g : Int → Int) : Instr → Instr
  | .cp src tgt => .cp (f src) (g tgt)
  | .load memref tgt => .load (f memref) (g tgt)
  | .store src memref => .store (f src) (f memref)
  | .add src1 src2 tgt => .add (f src1) (f src2) (g tgt)
  | .mul src1 src2 tgt => .mul (f src1) (f src2) (g tgt)
  | .sub src1 src2 tgt => .sub (f src1) (f src2) (g tgt)
  | .read tgt => .read (g tgt)
  | .write src => .write (f src)
  | .jumpZero src addr => .jumpZero (f src) (f addr)
  | .jumpPos src addr => .jumpPos (f src) (f addr)
  | .jumpNeg src addr => .jumpNeg (f src) (f addr)

theorem Instr.map_eq_self_iff {f : Operand → Operand} {g : Int → Int} {i : Instr} :
    i.map f g = i ↔ (∀ o ∈ i.sources, f o = o) ∧ ∀ t ∈ i.target?, g t = t := by
  cases i <;> simp [Instr.map, Instr.sources, Instr.target?, and_assoc]

/-- A word carries an instruction when it carries each source operand and the target. -/
theorem Instr.wf_iff {xlen : Nat} {i : Instr} :
    i.wf xlen = true ↔ (∀ o ∈ i.sources, o.wf xlen = true) ∧ ∀ t ∈ i.target?, targetWf t = true := by
  cases i <;> simp [Instr.wf, Instr.sources, Instr.target?, and_assoc]

theorem operandOf_fieldBits_eq_iff {xlen : Nat} (hx : 1 ≤ xlen) (o : Operand) :
    operandOf (modeBit o) (fieldBits xlen o) = o ↔ o.wf xlen = true :=
  ⟨fun h => h ▸ wf_operandOf hx _ _, operandOf_fieldBits hx⟩

theorem targetOf_targetBits_eq_iff (t : Int) : targetOf (targetBits t) = t ↔ targetWf t = true :=
  ⟨fun h => h ▸ targetWf_targetOf _, targetOf_targetBits⟩

/-- Decoding the fields of an instruction reads each operand and the target back from its own field. -/
theorem decodeFields_encodeFields (xlen : Nat) (i : Instr) :
    decodeFields (encodeFields xlen i) =
      .ok (i.map (fun o => operandOf (modeBit o) (fieldBits xlen o)) fun t => targetOf (targetBits t)) := by
  cases i <;> rfl

/-- The instructions that come back from their word are those a word can carry. -/
theorem decode_encode_eq_ok_iff {xlen : Nat} (hx : 1 ≤ xlen) {i : Instr} :
    decode (encode xlen i) = .ok i ↔ i.wf xlen = true := by
  rw [decode, encode, fieldsOf_pack, decodeFields_encodeFields, Except.ok.injEq, Instr.map_eq_self_iff, Instr.wf_iff]
  simp only [operandOf_fieldBits_eq_iff hx, targetOf_targetBits_eq_iff]

/-! ### The fields of the instruction they decode to -/

section

variable {xlen : Nat} (f : Fields xlen) (m : BitVec 1) (field : BitVec xlen)

@[simp] theorem Fields.withA_operandOf : f.withA (operandOf m field) = { f with am := m, a := field } := by
  simp only [Fields.withA, modeBit_operandOf, fieldBits_operandOf]

@[simp] theorem Fields.withB_operandOf : f.withB (operandOf m field) = { f with bm := m, b := field } := by
  simp only [Fields.withB, modeBit_operandOf, fieldBits_operandOf]

@[simp] theorem Fields.withTgt_targetOf (t : BitVec 8) : f.withTgt (targetOf t) = { f with tgt := t } := by
  simp only [Fields.withTgt, targetBits_targetOf]

end

/-- The zeros the encoder writes in unused fields are those the decoder asks for. -/
theorem encodeFields_of_decodeFields {xlen : Nat} {f : Fields xlen} {i : Instr} (h : decodeFields f = .ok i) :
    encodeFields xlen i = f := by
  rw [decodeFields_eq_ok] at h
  obtain ⟨op, cond, am, bm, tgt, a, b⟩ := f
  dsimp only at h
  obtain ⟨rfl, rfl, ⟨rfl, rfl⟩, rfl⟩ | ⟨rfl, rfl, ⟨rfl, rfl⟩, rfl⟩ | ⟨rfl, rfl, rfl, rfl⟩ | ⟨rfl, rfl, rfl⟩ |
    ⟨rfl, rfl, rfl⟩ | ⟨rfl, rfl, rfl⟩ | ⟨rfl, rfl, ⟨rfl, rfl⟩, ⟨rfl, rfl⟩, rfl⟩ | ⟨rfl, rfl, ⟨rfl, rfl⟩, rfl, rfl⟩ |
    ⟨rfl, rfl, rfl, rfl⟩ | ⟨rfl, rfl, rfl, rfl⟩ | ⟨rfl, rfl, rfl, rfl⟩ := h <;> simp [encodeFields, blankFields]

/-- A word that decodes is the word of its instruction (R65). -/
theorem encode_of_decode {xlen : Nat} {w : InstrWord xlen} {i : Instr} (h : decode w = .ok i) : encode xlen i = w := by
  rw [encode, encodeFields_of_decodeFields h, pack_fieldsOf]

/-- Settles O2: a word that decodes is the word of its instruction, which therefore comes back from its word and so is
one a word can carry. -/
theorem decodeAndEncodeAreInverse : Obligations.DecodeAndEncodeAreInverse := by
  refine fun xlen hx => ⟨fun i => (decode_encode_eq_ok_iff hx).2, fun w i h => ?_⟩
  have hw : encode xlen i = w := encode_of_decode h
  exact ⟨(decode_encode_eq_ok_iff hx).1 (hw ▸ h), hw⟩

end Sys2Proof
end

section
/-!
SUPPORT and PROOFS. The encoding family (30_encoding.md, Part C): literals that do not fit, register tokens, and lines
that hold no instruction.

Every instruction's text is a mnemonic and one text per argument, so a line is rejected when one operand's text is.
-/

namespace Sys2Proof

open Sys2Proof.Assembly

/-! ### The text of an instruction by its parts (R70) -/

/-- The mnemonic of an instruction's form. -/
@[simp] def Instr.mnemonic : Instr → Mnemonic
  | .cp _ _ => .cp
  | .load _ _ => .load
  | .store _ _ => .store
  | .add _ _ _ => .add
  | .mul _ _ _ => .mul
  | .sub _ _ _ => .sub
  | .read _ => .read
  | .write _ => .write
  | .jumpZero _ _ => .jump
  | .jumpPos _ _ => .jump
  | .jumpNeg _ _ => .jump

/-- The condition of a JUMP. -/
@[simp] def Instr.condition? : Instr → Option Condition
  | .jumpZero _ _ => some .zero
  | .jumpPos _ _ => some .positive
  | .jumpNeg _ _ => some .negative
  | _ => none

/-- The text of each argument: the condition, the source operands, the target. -/
def Instr.argTexts (i : Instr) : List (List Char) :=
  i.condition?.toList.map conditionText ++ i.sources.map operandText ++ i.target?.toList.map targetText

theorem instrText_eq_lineText (i : Instr) : instrText i = lineText i.mnemonic i.argTexts := by
  cases i <;> rfl

theorem Instr.argTexts_ne_nil (i : Instr) : i.argTexts ≠ [] := by
  cases i <;> exact List.cons_ne_nil _ _

theorem Instr.argTexts_token (i : Instr) : ∀ t ∈ i.argTexts, Plain t ∧ t ≠ [] := by
  simp only [Instr.argTexts, List.mem_append, List.mem_map]
  rintro t ((⟨c, -, rfl⟩ | ⟨o, -, rfl⟩) | ⟨r, -, rfl⟩)
  · exact conditionText_token c
  · exact operandText_token o
  · exact targetText_token r

/-- An instruction's text assembles to what its mnemonic and its arguments give. -/
theorem assembleLine_instrText (xlen : Nat) (i : Instr) :
    assembleLine xlen (instrText i) =
      match instrOf xlen i.mnemonic i.argTexts with
      | some j => .ok (some j)
      | none => .error .malformedInstruction := by
  rw [instrText_eq_lineText]
  exact assembleLine_lineText i.mnemonic i.argTexts i.argTexts_ne_nil i.argTexts_token

/-! ### Literals that do not fit (R74) -/

theorem operandToken_lit_of_not_fits {xlen : Nat} {v : Int} (h : ¬ Fits xlen v) :
    operandToken xlen (operandText (.lit v)) = none := by
  simp only [operandToken, operandText, registerToken_intText, literalToken_intText, if_neg h, Option.map_none]

/-- One source operand whose text is no operand token is enough to refuse the arguments. -/
theorem instrOf_eq_none {xlen : Nat} {i : Instr} {o : Operand} (ho : o ∈ i.sources)
    (h : operandToken xlen (operandText o) = none) : instrOf xlen i.mnemonic i.argTexts = none := by
  cases i with
  | cp | load | write =>
    obtain rfl := List.mem_singleton.1 ho
    simp [Instr.argTexts, Instr.sources, Instr.target?, instrOf, h]
  | read => cases ho
  | store | add | mul | sub | jumpZero | jumpPos | jumpNeg =>
    obtain rfl | rfl := List.mem_pair.1 ho <;>
      simp [Instr.argTexts, Instr.sources, Instr.target?, instrOf, h]

/-- Settles O58: the literal's text is no operand token, and so the arguments give no instruction. -/
theorem literalsThatDoNotFitAreRejected : Obligations.LiteralsThatDoNotFitAreRejected := by
  intro xlen i v hv hfit
  rw [assembleLine_instrText, instrOf_eq_none hv (operandToken_lit_of_not_fits hfit)]

/-! ### Register tokens (R69) -/

/-- All that a register token can be. -/
theorem registerToken_eq_some {l : List Char} {n : Nat} (h : registerToken l = some n) :
    ∃ ds, l = 'r' :: ds ∧ natToken ds = some n ∧ n ≤ 15 := by
  unfold registerToken at h
  split at h
  · next ds =>
    split at h
    · next m hm =>
      split at h
      · next hle =>
        cases h
        exact ⟨ds, rfl, hm, hle⟩
      · cases h
    · cases h
  · cases h

/-- Settles O59: digits that read as a number are that number's text, and its text reads as the number. -/
theorem registerTokensAreR0ToR15 : Obligations.RegisterTokensAreR0ToR15 := by
  refine fun l n => ⟨fun h => ?_, ?_⟩
  · obtain ⟨ds, rfl, hds, hn⟩ := registerToken_eq_some h
    exact ⟨hn, congrArg _ (eq_natText_of_natToken hds)⟩
  · rintro ⟨hn, rfl⟩
    simp [registerToken, natToken_natText, hn]

/-! ### Lines that hold no instruction (R71) -/

/-- Settles O60, by induction on the lines before it. -/
theorem blankLinesAreNotCounted : Obligations.BlankLinesAreNotCounted := by
  intro xlen before after l hl
  induction before with
  | nil => simp only [List.nil_append, assembleLines, hl]
  | cons b before ih => simp only [List.cons_append, assembleLines, ih]

end Sys2Proof
end

section
/-!
SUPPORT and PROOFS. The step family (40_step_and_operands.md): the resolver, the register index an execution reports,
and what a step request answers.

`step_of_running` says once what a step taken from a running state can be; a request in any other state is not
performed.
-/

namespace Sys2Proof.Machine

/-! ### The bounds of a configuration (R4 to R6) -/

theorem config_wf_iff {c : Config} :
    c.wf = true ↔ 32 ≤ c.xlen ∧ c.memCap ≤ 2 ^ (c.xlen - 1) ∧ c.plen ≤ 2 ^ (c.xlen - 1) - 1 := by
  simp only [Config.wf, Bool.and_eq_true, decide_eq_true_eq, and_assoc]

/-- Every index of a program within its bounds is an XLEN-bit integer. -/
theorem fits_of_lt_plen {c : Config} (hc : c.wf = true) {k : Int} (h0 : 0 ≤ k) (hk : k < c.plen) : Fits c.xlen k := by
  obtain ⟨-, -, hplen⟩ := config_wf_iff.1 hc
  have hcast : ((2 ^ (c.xlen - 1) : Nat) : Int) = 2 ^ (c.xlen - 1) := by push_cast; rfl
  exact ⟨(minWord_neg c.xlen).le.trans h0, by simp only [maxWord]; omega⟩

/-- A number of a few bits fits every width the spec allows. -/
theorem fits_of_lt_two_pow_31 {xlen : Nat} (hx : 32 ≤ xlen) {k : Int} (h0 : 0 ≤ k) (hk : k < 2 ^ 31) :
    Fits xlen k := by
  have hpow : (2 : Int) ^ 31 ≤ 2 ^ (xlen - 1) := pow_le_pow_right₀ (by decide) (by omega)
  exact ⟨(minWord_neg xlen).le.trans h0, by simp only [maxWord]; omega⟩

/-! ### The resolver (R84, R85) -/

theorem not_inRange_iff {i : Int} : ¬ InRange i ↔ i < 0 ∨ 15 < i := by
  simp only [InRange]
  omega

/-- An operand that a word carries has an XLEN-bit value in a machine state. -/
theorem value_fits {s : State} (hs : s.Inv) {o : Operand} {v : Int} (ho : o.wf s.cfg.xlen = true)
    (hv : value s o = .ok v) : Fits s.cfg.xlen v := by
  obtain rfl | ⟨r, rfl, rfl⟩ := value_eq_ok.1 hv
  · simpa only [Operand.wf, decide_eq_true_eq] using ho
  · exact hs.registers r

/-- Settles O7: literal, register and bad index by the resolver's own lemmas; a value is a literal that fits or a
register of the invariant. -/
theorem valueResolvesSourceOperands : Obligations.ValueResolvesSourceOperands := fun s =>
  ⟨value_lit s, value_reg s, fun _ hi => value_reg_error (not_inRange_iff.2 hi), fun _ _ hs => value_fits hs⟩

/-- Settles O8: a target is a slot, by its index. -/
theorem targetResolvesRegisterIndices : Obligations.TargetResolvesRegisterIndices := fun s =>
  ⟨target_slot s, fun _ hi => slot_error (not_inRange_iff.2 hi)⟩

theorem value_reg_15 (s : State) : value s (.reg 15) = .ok s.ip := value_reg s 15

theorem target_15 (s : State) : target s 15 = .ok 15 := target_slot s 15

/-! ### The instructions that write a register, when their checks pass (R100, R111 to R113, R120) -/

theorem exec_cp {s : State} {src : Operand} {tgt v : Int} {r : Fin 16} (hv : value s src = .ok v)
    (hr : target s tgt = .ok r) : exec (.cp src tgt) s = .next (s.setX r v).advance := by
  simp only [exec, execCp, hv, hr, attempt_ok]

theorem exec_read {s : State} {tgt v : Int} {rest : List Int} {r : Fin 16} (hr : target s tgt = .ok r)
    (hi : s.input = v :: rest) : exec (.read tgt) s = .next ((s.withInput rest).setX r v).advance := by
  simp only [exec, execRead, hr, takeInput_cons hi, attempt_ok]

section Arithmetic

variable {s : State} {src1 src2 : Operand} {tgt p q : Int} {r : Fin 16} (hp : value s src1 = .ok p)
  (hq : value s src2 = .ok q) (hr : target s tgt = .ok r)
include hp hq hr

theorem arithmetic_ok (f : Int → Int → Int) : arithmetic f src1 src2 tgt s = .next (s.setX r (f p q)).advance :=
  arithmetic_eq_next.2 (.inl ⟨p, q, r, hp, hq, hr, rfl⟩)

theorem exec_add : exec (.add src1 src2 tgt) s = .next (s.setX r (wrap s.cfg.xlen (p + q))).advance :=
  arithmetic_ok hp hq hr _

theorem exec_mul : exec (.mul src1 src2 tgt) s = .next (s.setX r (wrap s.cfg.xlen (p * q))).advance :=
  arithmetic_ok hp hq hr _

theorem exec_sub : exec (.sub src1 src2 tgt) s = .next (s.setX r (wrap s.cfg.xlen (p - q))).advance :=
  arithmetic_ok hp hq hr _

end Arithmetic

/-- The advance after a write to r15 counts from the value written (R89, R91). -/
theorem State.setX_15_advance_ip (s : State) (v : Int) : (s.setX 15 v).advance.ip = wrap s.cfg.xlen (v + 1) := by
  simp

/-- Settles O24: each instruction writes its result to r15 and then advances. -/
theorem writingRegister15LandsOnePast : Obligations.WritingRegister15LandsOnePast := by
  intro s src1 src2 p q hp hq
  have hr := target_15 s
  exact ⟨⟨_, exec_cp hp hr, s.setX_15_advance_ip _⟩,
    fun hb => ⟨_, exec_load hp hr hb, s.setX_15_advance_ip _⟩,
    ⟨_, exec_add hp hq hr, s.setX_15_advance_ip _⟩,
    ⟨_, exec_mul hp hq hr, s.setX_15_advance_ip _⟩,
    ⟨_, exec_sub hp hq hr, s.setX_15_advance_ip _⟩,
    fun v rest hi => ⟨_, exec_read hr hi, (s.withInput rest).setX_15_advance_ip v⟩⟩

/-! ### The leftmost bad register index (R87, R88) -/

theorem not_decide_inRange {i : Int} : (!decide (InRange i)) = true ↔ ¬ InRange i := by
  rw [Bool.not_eq_true', decide_eq_false_iff_not]

/-- The first index outside 0 .. 15 among those of source operands and then of targets. -/
def firstBadOf (sources : List Operand) (targets : List Int) : Option Int :=
  (sources.filterMap Operand.index? ++ targets).find? fun k => !decide (InRange k)

theorem firstBadIndex_eq_firstBadOf (i : Instr) : i.firstBadIndex = firstBadOf i.sources i.target?.toList := rfl

theorem inRange_of_firstBadIndex_eq_none {i : Instr} (h : i.firstBadIndex = none) {k : Int}
    (hk : k ∈ i.indices) : InRange k :=
  not_not.1 fun hbad => List.find?_eq_none.1 h k hk (not_decide_inRange.2 hbad)

theorem firstBadOf_lit (v : Int) (os : List Operand) (ts : List Int) :
    firstBadOf (.lit v :: os) ts = firstBadOf os ts := rfl

theorem firstBadOf_reg_of_inRange {i : Int} (h : InRange i) (os : List Operand) (ts : List Int) :
    firstBadOf (.reg i :: os) ts = firstBadOf os ts :=
  List.find?_cons_of_neg fun hb => not_decide_inRange.1 hb h

theorem firstBadOf_reg_of_not_inRange {i : Int} (h : ¬ InRange i) (os : List Operand) (ts : List Int) :
    firstBadOf (.reg i :: os) ts = some i :=
  List.find?_cons_of_pos (not_decide_inRange.2 h)

theorem firstBadOf_target_eq_some {t k : Int} (h : firstBadOf [] [t] = some k) : t = k ∧ ¬ InRange k := by
  obtain rfl : k = t := List.mem_singleton.1 (List.mem_of_find?_eq_some h)
  exact ⟨rfl, not_decide_inRange.1 (List.find?_some (p := fun k => !decide (InRange k)) h)⟩

/-- An outcome that reports the first bad index of the operands still to be resolved, where there is one. -/
def ReportsFirstBad (s : State) (sources : List Operand) (targets : List Int) (o : StepOutcome) : Prop :=
  ∀ k, firstBadOf sources targets = some k → o = .next (s.raise (badRegister s k))

namespace ReportsFirstBad

variable {s : State}

/-- With no operand left, nothing is to be reported. -/
theorem done (o : StepOutcome) : ReportsFirstBad s [] [] o := nofun

theorem attempt_value {o : Operand} {os : List Operand} {ts : List Int} {next : Int → StepOutcome}
    (h : ∀ v, ReportsFirstBad s os ts (next v)) : ReportsFirstBad s (o :: os) ts (attempt s (value s o) next) := by
  intro k hk
  cases ho : value s o with
  | error e =>
    obtain ⟨i, rfl, hi, rfl⟩ := value_eq_error.1 ho
    obtain rfl : i = k := Option.some.inj ((firstBadOf_reg_of_not_inRange hi os ts).symm.trans hk)
    rfl
  | ok v =>
    refine h v k ?_
    obtain rfl | ⟨r, rfl, -⟩ := value_eq_ok.1 ho
    · rwa [firstBadOf_lit] at hk
    · rwa [firstBadOf_reg_of_inRange ⟨by omega, by omega⟩] at hk

theorem attempt_target (t : Int) (next : Fin 16 → StepOutcome) :
    ReportsFirstBad s [] [t] (attempt s (target s t) next) := by
  intro k hk
  obtain ⟨rfl, ht⟩ := firstBadOf_target_eq_some hk
  rw [target, slot_error ht, attempt_error]

theorem of_arithmetic (f : Int → Int → Int) (src1 src2 : Operand) (tgt : Int) :
    ReportsFirstBad s [src1, src2] [tgt] (arithmetic f src1 src2 tgt s) :=
  attempt_value fun _ => attempt_value fun _ => attempt_target _ _

theorem of_jumpWhen (c : Condition) (src addr : Operand) : ReportsFirstBad s [src, addr] [] (jumpWhen c src addr s) :=
  attempt_value fun _ => attempt_value fun _ => done _

/-- Every instruction resolves its operands in written order, the target last, before anything else. -/
theorem of_exec (i : Instr) (s : State) : ReportsFirstBad s i.sources i.target?.toList (exec i s) :=
  match i with
  | .cp _ _ => attempt_value fun _ => attempt_target _ _
  | .load _ _ => attempt_value fun _ => attempt_target _ _
  | .store _ _ => attempt_value fun _ => attempt_value fun _ => done _
  | .add _ _ _ => of_arithmetic _ _ _ _
  | .mul _ _ _ => of_arithmetic _ _ _ _
  | .sub _ _ _ => of_arithmetic _ _ _ _
  | .read _ => attempt_target _ _
  | .write _ => attempt_value fun _ => done _
  | .jumpZero _ _ => of_jumpWhen _ _ _
  | .jumpPos _ _ => of_jumpWhen _ _ _
  | .jumpNeg _ _ => of_jumpWhen _ _ _

end ReportsFirstBad

/-- The register index an execution reports (R87, R88). -/
theorem exec_of_firstBadIndex {i : Instr} {k : Int} (h : i.firstBadIndex = some k) (s : State) :
    exec i s = .next (s.raise (badRegister s k)) :=
  ReportsFirstBad.of_exec i s k ((firstBadIndex_eq_firstBadOf i).symm.trans h)

/-- An instruction completes with the fault record as it was, or raises one of three errors and changes nothing else. -/
theorem Effect.completed_or_raised {i : Instr} {s t : State} (h : Effect i s t) :
    t.fault = s.fault ∨ ∃ e, t = s.raise e ∧
      ((∃ k ∈ i.indices, ¬ InRange k ∧ e = badRegister s k) ∨
        e.kind = .memoryOutOfBounds ∨ e.kind = .inputExhausted) := by
  cases h with
  | badIndex k hk hb => exact .inr ⟨_, rfl, .inl ⟨k, hk, hb, rfl⟩⟩
  | outOfBounds => exact .inr ⟨_, rfl, .inr (.inl rfl)⟩
  | inputExhausted => exact .inr ⟨_, rfl, .inr (.inr rfl)⟩
  | _ => exact .inl rfl

/-- Settles O29: the operands are resolved in written order; and RegisterOutOfRange is raised for a bad index only. -/
theorem leftmostBadRegisterIndexIsReported : Obligations.LeftmostBadRegisterIndexIsReported := by
  refine fun s i => ⟨fun _ hk => exec_of_firstBadIndex hk s, fun hnone hf t e ht he => ?_⟩
  obtain hc | ⟨e', rfl, hkind⟩ := (effect_of_exec ht).completed_or_raised
  · rw [hc, hf] at he
    cases he
  · obtain rfl : e' = e := Option.some.inj he
    obtain ⟨k, hk, hbad, -⟩ | hkind | hkind := hkind
    · exact absurd (inRange_of_firstBadIndex_eq_none hnone hk) hbad
    · simp [hkind]
    · simp [hkind]

/-! ### What a step request answers (R81) -/

theorem afterStep_of_next {s t : State} (h : step s = .next t) : afterStep s = t := by
  simp only [afterStep, h]

theorem stepResult_of_raised {s t : State} {e : FaultRecord} (h : step s = .next t) (he : t.fault = some e) :
    stepResult s = some (.error e) := by
  simp only [stepResult, h, resultOf, he]

theorem stepResult_of_continued {s t : State} (h : step s = .next t) (ht : t.Running) :
    stepResult s = some .continued := by
  obtain ⟨hh, hf⟩ := ht
  simp [stepResult, h, resultOf, hf, hh]

/-- A request after Halted (R93). -/
theorem stepResult_of_halted {s : State} (hh : s.halted = true) (hf : s.fault = none) :
    stepResult s = some (.error ⟨.stepAfterHalt, 0⟩) := by
  simp only [stepResult, step_of_halted hf hh, resultOf]

/-- A request in the faulted state (R94). -/
theorem stepResult_of_fault {s : State} {e : FaultRecord} (h : s.fault = some e) : stepResult s = some (.error e) := by
  simp only [stepResult, step_of_fault h, resultOf]

theorem afterStep_of_fault {s : State} {e : FaultRecord} (h : s.fault = some e) : afterStep s = s := by
  simp only [afterStep, step_of_fault h]

/-- An instruction in the program is what the step runs. -/
theorem step_of_decode {s : State} (hs : s.Running) {w : InstrWord s.cfg.xlen} {i : Instr} (hw : s.fetch = some w)
    (hd : decode w = .ok i) : step s = exec i s := by
  obtain ⟨hh, hf⟩ := hs
  simp [step, hf, hh, hw, hd]

theorem step_of_illegal {s : State} (hs : s.Running) {w : InstrWord s.cfg.xlen} {d : Illegal} (hw : s.fetch = some w)
    (hd : decode w = .error d) : step s = .next (s.raise ⟨.illegalInstruction, s.ip⟩) := by
  obtain ⟨hh, hf⟩ := hs
  simp [step, hf, hh, hw, hd]

/-- In a running state a step halts, raises an error and changes nothing else, or runs an instruction in full. -/
theorem step_of_running {s : State} (hs : s.Running) :
    (¬ s.IpInProgram ∧ step s = .next s.halt) ∨
    (∃ e, step s = .next (s.raise e) ∧ e.kind ≠ .stepAfterHalt) ∨
    ∃ i t, currentInstr s = some i ∧ exec i s = .next t ∧ step s = .next t ∧ t.Running := by
  have ⟨hh, hf⟩ := hs
  cases hw : s.fetch with
  | none =>
    have hout := fetch_eq_none.1 hw
    exact .inl ⟨hout, step_of_outside hf hh hout⟩
  | some w =>
    refine .inr ?_
    cases hd : decode w with
    | error d => exact .inl ⟨_, step_of_illegal hs hw hd, by simp⟩
    | ok i =>
      obtain ⟨t, ht, heff⟩ := exec_effect i s
      have hstep := (step_of_decode hs hw hd).trans ht
      obtain hfault | ⟨e, rfl, hkind⟩ := heff.completed_or_raised
      · have hi := currentInstr_eq_some.2 ⟨hf, hh, w, hw, hd⟩
        exact .inr ⟨i, t, hi, ht, hstep, heff.halted_eq.trans hh, hfault.trans hf⟩
      · refine .inl ⟨e, hstep, ?_⟩
        obtain ⟨k, -, -, rfl⟩ | hkind | hkind := hkind
        · simp [badRegister]
        · simp [hkind]
        · simp [hkind]

/-- Settles O33: a step is taken from a running state only, and of its three ways one records a fault. -/
theorem raisingChangesOnlyTheFaultRecord : Obligations.RaisingChangesOnlyTheFaultRecord := by
  refine ⟨fun s t e hf h he => ?_, fun s hh hf => ⟨stepResult_of_halted hh hf, afterStep_of_halted hh⟩⟩
  obtain ⟨-, hh, -⟩ := step_eq_next h
  obtain ⟨-, hstep⟩ | ⟨e', hstep, -⟩ | ⟨i, u, -, -, hstep, -, hu⟩ := step_of_running ⟨hh, hf⟩ <;>
    obtain rfl := Host.Outcome.next.inj (h.symm.trans hstep)
  · simp [hf] at he
  · obtain rfl : e' = e := Option.some.inj he
    rfl
  · simp [hu] at he

/-- Settles O40: a request that is not performed reports its error, and a step taken from a running state goes one of
its three ways. -/
theorem stepHasExactlyThreeOutcomes : Obligations.StepHasExactlyThreeOutcomes := by
  intro s
  obtain hf | ⟨e, hf⟩ := Option.eq_none_or_eq_some s.fault
  · obtain hh | hh := s.halted.eq_false_or_eq_true
    · exact .inr (.inr ⟨_, stepResult_of_halted hh hf, .inl (afterStep_of_halted hh)⟩)
    · have hs : s.Running := ⟨hh, hf⟩
      obtain ⟨hout, -⟩ | ⟨e, hstep, -⟩ | ⟨i, t, hi, ht, hstep, hrun⟩ := step_of_running hs
      · exact .inr (.inl ⟨stepResult_of_outside hs hout, afterStep_of_outside hs hout⟩)
      · exact .inr (.inr ⟨e, stepResult_of_raised hstep rfl, .inr (afterStep_of_next hstep)⟩)
      · exact .inl ⟨stepResult_of_continued hstep hrun, i, t, hi, ht, afterStep_of_next hstep, hrun⟩
  · exact .inr (.inr ⟨e, stepResult_of_fault hf, .inl (afterStep_of_fault hf)⟩)

/-- Settles O36: outside the program a step is the halt check, and index 0 is outside an empty program. -/
theorem ipOutsideTheProgramHalts : Obligations.IpOutsideTheProgramHalts := by
  refine ⟨fun s hf hh hip => ?_, fun cfg input hlen => stepResult_of_outside ⟨rfl, rfl⟩ fun hin => ?_⟩
  · have hout : ¬ s.IpInProgram := fun hin => by
      obtain ⟨h0, hlt⟩ := hin
      omega
    exact ⟨step_of_outside hf hh hout, stepResult_of_outside ⟨hh, hf⟩ hout⟩
  · obtain ⟨-, hlt⟩ := hin
    rw [State.resetWith_ip, show (State.resetWith cfg input).cfg.plen = 0 from hlen] at hlt
    exact absurd hlt (lt_irrefl _)

/-! ### Requests repeated (R93 to R95) -/

/-- A state that one request leaves as it was is left so by any number of them. -/
theorem afterSteps_of_afterStep_eq {s : State} (h : afterStep s = s) (n : Nat) : afterSteps n s = s := by
  induction n with
  | zero => rfl
  | succ n ih => rw [afterSteps, h, ih]

/-- Begun in a running state, `run` surfaces no StepAfterHalt: it goes on from running states only (R95). -/
theorem run_error_ne_stepAfterHalt {n : Nat} {s t : State} {e : FaultRecord} (hs : s.Running)
    (h : run n s = .error e t) : e.kind ≠ .stepAfterHalt := by
  induction n generalizing s with
  | zero => simp [run] at h
  | succ n ih =>
    obtain ⟨hout, -⟩ | ⟨e', hstep, hkind⟩ | ⟨i, u, -, -, hstep, hrun⟩ := step_of_running hs
    · simp [run, stepResult_of_outside hs hout] at h
    · simp only [run, stepResult_of_raised hstep rfl, RunEnd.error.injEq] at h
      obtain ⟨rfl, -⟩ := h
      exact hkind
    · simp only [run, stepResult_of_continued hstep hrun, afterStep_of_next hstep] at h
      exact ih hrun h

/-- Settles O38: the request after Halted is not performed, and `run` makes none. -/
theorem stepAfterHaltChangesNothing : Obligations.StepAfterHaltChangesNothing :=
  ⟨fun _ hh hf => ⟨stepResult_of_halted hh hf, afterSteps_of_afterStep_eq (afterStep_of_halted hh)⟩,
    fun _ _ _ _ hs h => run_error_ne_stepAfterHalt hs h⟩

/-- Settles O39: the request in the faulted state is not performed; reset clears `halted` and the fault record. -/
theorem faultedStateIsLeftByResetOnly : Obligations.FaultedStateIsLeftByResetOnly := fun _ _ h =>
  ⟨stepResult_of_fault h, afterSteps_of_afterStep_eq (afterStep_of_fault h), fun _ => ⟨rfl, rfl⟩⟩

/-! ### r15 as a source (R90) -/

/-- `ADD r15, 0, r0` is an instruction that a word carries at every width the spec allows. -/
theorem wf_add_r15_0_r0 {xlen : Nat} (hx : 32 ≤ xlen) : (Instr.add (.reg 15) (.lit 0) 0).wf xlen = true := by
  have h15 : Fits xlen 15 := fits_of_lt_two_pow_31 hx (by decide) (by decide)
  have h0 : Fits xlen 0 := fits_of_lt_two_pow_31 hx (by decide) (by decide)
  simp only [Instr.wf, Operand.wf, Bool.and_eq_true, decide_eq_true_eq]
  exact ⟨⟨h15, h0⟩, by decide⟩

/-- Settles O23: the step runs the ADD, whose sum is the index itself, an XLEN-bit integer. -/
theorem sourceRegister15ReadsTheOwnIndex : Obligations.SourceRegister15ReadsTheOwnIndex := by
  intro s hs hin
  refine ⟨value_reg_15 s, fun hwf hfetch => ?_⟩
  obtain ⟨hx, -, -⟩ := config_wf_iff.1 hwf
  have hdec := (decode_encode_eq_ok_iff (by omega)).2 (wf_add_r15_0_r0 hx)
  have hsum : wrap s.cfg.xlen (s.ip + 0) = s.ip := by
    rw [add_zero, wrap_of_fits (by omega) (fits_of_lt_plen hwf hin.1 hin.2)]
  have hexec := exec_add (value_reg_15 s) (value_lit s 0) (target_slot s 0)
  refine ⟨_, (step_of_decode hs hfetch hdec).trans hexec, ?_⟩
  simpa using hsum

end Sys2Proof.Machine
end

section
/-!
SUPPORT and PROOFS. The arithmetic family (42_arithmetic.md): the boundary table of ADD, SUB and MUL, and a target that
is also a source.

Modulo 2^XLEN twice MIN is 0 and MAX is MIN - 1; each row of the table follows from one of these and from a result that
fits.
-/

namespace Sys2Proof.Machine

/-! ### A target that is also a source (R114) -/

/-- Settles O21: a register operand resolves to the value before the instruction, and the target written is its
register. -/
theorem sourcesAreReadBeforeTheTargetIsWritten : Obligations.SourcesAreReadBeforeTheTargetIsWritten := by
  intro s r o q ho
  have hv := value_reg s r
  have hr := target_slot s r
  have hwrote (v : Int) := wroteAndAdvanced_setX s r v
  exact ⟨⟨_, exec_cp hv hr, hwrote _⟩,
    fun hb => exec_load_wroteAndAdvanced hv hr hb rfl,
    ⟨_, exec_add hv ho hr, hwrote _⟩, ⟨_, exec_add ho hv hr, hwrote _⟩,
    ⟨_, exec_mul hv ho hr, hwrote _⟩, ⟨_, exec_mul ho hv hr, hwrote _⟩,
    ⟨_, exec_sub hv ho hr, hwrote _⟩, ⟨_, exec_sub ho hv hr, hwrote _⟩⟩

/-! ### Integers with the same wrapped value (R110) -/

theorem wrap_eq_wrap_of_modEq {xlen : Nat} {z w : Int} (h : z ≡ w [ZMOD 2 ^ xlen]) : wrap xlen z = wrap xlen w := by
  have hdvd : ((2 ^ xlen : Nat) : Int) ∣ z - w := by
    push_cast
    exact h.symm.dvd
  exact Int.bmod_eq_bmod_iff_bmod_sub_eq_zero.2 (Int.dvd_iff_bmod_eq_zero.1 hdvd)

theorem two_pow_eq_neg_two_mul_minWord {xlen : Nat} (h : 1 ≤ xlen) : (2 : Int) ^ xlen = -(2 * minWord xlen) := by
  rw [two_pow_succ_pred h, minWord, mul_neg, neg_neg]

theorem maxWord_eq (xlen : Nat) : maxWord xlen = -minWord xlen - 1 := by
  rw [minWord, maxWord, neg_neg]

/-- MIN is twice the MIN of one bit less. -/
theorem minWord_eq_two_mul {xlen : Nat} (h : 2 ≤ xlen) : minWord xlen = 2 * minWord (xlen - 1) := by
  rw [minWord, minWord, two_pow_succ_pred (by omega), mul_neg]

/-- An integer wraps to the one that fits and differs from it by a multiple of twice MIN. -/
theorem wrap_eq_of_eq_add {xlen : Nat} (h : 1 ≤ xlen) {z w k : Int} (hw : Fits xlen w)
    (hz : z = w + 2 * minWord xlen * k) : wrap xlen z = w := by
  have hmod : z ≡ w [ZMOD 2 ^ xlen] := by
    rw [two_pow_eq_neg_two_mul_minWord h, Int.modEq_iff_dvd, neg_dvd]
    exact ⟨-k, by rw [hz]; ring⟩
  exact (wrap_eq_wrap_of_modEq hmod).trans (wrap_of_fits h hw)

/-! ### What fits -/

theorem fits_neg {xlen : Nat} {a : Int} (ha : Fits xlen a) (hne : a ≠ minWord xlen) : Fits xlen (-a) := by
  obtain ⟨hlo, hhi⟩ := ha
  rw [maxWord_eq] at hhi
  exact ⟨by omega, by rw [maxWord_eq]; omega⟩

theorem fits_maxWord (xlen : Nat) : Fits xlen (maxWord xlen) := by
  have hneg := minWord_neg xlen
  exact ⟨by rw [maxWord_eq]; omega, le_rfl⟩

/-- The results of the table that do not depend on XLEN. -/
theorem fits_of_neg_two_to_one {xlen : Nat} (h : 2 ≤ xlen) {k : Int} (hk : -2 ≤ k ∧ k ≤ 1) : Fits xlen k := by
  have hneg := minWord_neg (xlen - 1)
  have hmin := minWord_eq_two_mul h
  exact ⟨by omega, by rw [maxWord_eq]; omega⟩

/-! ### The laws of the closing paragraph of R116 -/

theorem aluAdd_comm (xlen : Nat) (a b : Int) : aluAdd xlen a b = aluAdd xlen b a := by
  rw [aluAdd, aluAdd, add_comm]

theorem aluMul_comm (xlen : Nat) (a b : Int) : aluMul xlen a b = aluMul xlen b a := by
  rw [aluMul, aluMul, mul_comm]

section Unsigned

variable (xlen : Nat) (a b : Int)

theorem aluAdd_unsigned : aluAdd xlen a b = aluAdd xlen (a % 2 ^ xlen) (b % 2 ^ xlen) :=
  (wrap_eq_wrap_of_modEq ((Int.mod_modEq a _).add (Int.mod_modEq b _))).symm

theorem aluSub_unsigned : aluSub xlen a b = aluSub xlen (a % 2 ^ xlen) (b % 2 ^ xlen) :=
  (wrap_eq_wrap_of_modEq ((Int.mod_modEq a _).sub (Int.mod_modEq b _))).symm

theorem aluMul_unsigned : aluMul xlen a b = aluMul xlen (a % 2 ^ xlen) (b % 2 ^ xlen) :=
  (wrap_eq_wrap_of_modEq ((Int.mod_modEq a _).mul (Int.mod_modEq b _))).symm

end Unsigned

/-! ### The rows whose exact result fits -/

theorem wrap_eq_of_fits {xlen : Nat} (h : 1 ≤ xlen) {z w : Int} (hw : Fits xlen w) (hz : z = w) :
    wrap xlen z = w := by
  rw [hz, wrap_of_fits h hw]

/-- A product in range is exact, and so has whatever property the exact product has: its sign. -/
theorem aluMul_exact {xlen : Nat} (h : 1 ≤ xlen) {a b : Int} (hfit : Fits xlen (a * b)) (P : Int → Prop)
    (hP : P (a * b)) : aluMul xlen a b = a * b ∧ P (aluMul xlen a b) := by
  have heq : aluMul xlen a b = a * b := wrap_of_fits h hfit
  exact ⟨heq, heq.symm ▸ hP⟩

/-! ### The rows that wrap -/

section Wraps

variable {xlen : Nat} (hx : 2 ≤ xlen)
include hx

theorem aluAdd_maxWord_one : aluAdd xlen (maxWord xlen) 1 = minWord xlen := wrap_maxWord_add_one (by omega)

theorem aluAdd_minWord_neg_one : aluAdd xlen (minWord xlen) (-1) = maxWord xlen :=
  wrap_eq_of_eq_add (k := 1) (by omega) (fits_maxWord xlen) (by rw [maxWord_eq]; ring)

theorem aluAdd_maxWord_maxWord : aluAdd xlen (maxWord xlen) (maxWord xlen) = -2 :=
  wrap_eq_of_eq_add (k := -1) (by omega) (fits_of_neg_two_to_one hx (by decide)) (by rw [maxWord_eq]; ring)

theorem aluAdd_minWord_minWord : aluAdd xlen (minWord xlen) (minWord xlen) = 0 :=
  wrap_eq_of_eq_add (k := 1) (by omega) (fits_of_neg_two_to_one hx (by decide)) (by ring)

theorem aluSub_zero_minWord : aluSub xlen 0 (minWord xlen) = minWord xlen :=
  wrap_eq_of_eq_add (k := -1) (by omega) (fits_minWord xlen) (by ring)

theorem aluSub_minWord_one : aluSub xlen (minWord xlen) 1 = maxWord xlen := aluAdd_minWord_neg_one hx

theorem aluSub_maxWord_neg_one : aluSub xlen (maxWord xlen) (-1) = minWord xlen := aluAdd_maxWord_one hx

theorem aluSub_maxWord_minWord : aluSub xlen (maxWord xlen) (minWord xlen) = -1 :=
  wrap_eq_of_eq_add (k := -1) (by omega) (fits_of_neg_two_to_one hx (by decide)) (by rw [maxWord_eq]; ring)

theorem aluSub_minWord_maxWord : aluSub xlen (minWord xlen) (maxWord xlen) = 1 :=
  wrap_eq_of_eq_add (k := 1) (by omega) (fits_of_neg_two_to_one hx (by decide)) (by rw [maxWord_eq]; ring)

theorem aluMul_minWord_neg_one : aluMul xlen (minWord xlen) (-1) = minWord xlen :=
  wrap_eq_of_eq_add (k := -1) (by omega) (fits_minWord xlen) (by ring)

theorem aluMul_maxWord_two : aluMul xlen (maxWord xlen) 2 = -2 :=
  wrap_eq_of_eq_add (k := -1) (by omega) (fits_of_neg_two_to_one hx (by decide)) (by rw [maxWord_eq]; ring)

theorem aluMul_minWord_minWord : aluMul xlen (minWord xlen) (minWord xlen) = 0 :=
  wrap_eq_of_eq_add (k := minWord (xlen - 1)) (by omega) (fits_of_neg_two_to_one hx (by decide))
    (by rw [minWord_eq_two_mul hx]; ring)

theorem aluMul_maxWord_maxWord : aluMul xlen (maxWord xlen) (maxWord xlen) = 1 :=
  wrap_eq_of_eq_add (k := minWord (xlen - 1) + 1) (by omega) (fits_of_neg_two_to_one hx (by decide))
    (by rw [maxWord_eq, minWord_eq_two_mul hx]; ring)

/-- At an even width the square of 2^(XLEN/2) is 2^XLEN. -/
theorem aluMul_two_pow_half_self (he : xlen % 2 = 0) : aluMul xlen (2 ^ (xlen / 2)) (2 ^ (xlen / 2)) = 0 := by
  have hprod : (2 : Int) ^ (xlen / 2) * 2 ^ (xlen / 2) = 2 ^ xlen := by
    rw [← pow_add]
    congr 1
    omega
  refine wrap_eq_of_eq_add (k := -1) (by omega) (fits_of_neg_two_to_one hx (by decide)) ?_
  rw [hprod, two_pow_eq_neg_two_mul_minWord (by omega)]
  ring

/-- At an even width the product of 2^(XLEN/2) and its half is 2^(XLEN-1), which is -MIN. -/
theorem aluMul_two_pow_half_pred (he : xlen % 2 = 0) :
    aluMul xlen (2 ^ (xlen / 2)) (2 ^ (xlen / 2 - 1)) = minWord xlen := by
  have hprod : (2 : Int) ^ (xlen / 2) * 2 ^ (xlen / 2 - 1) = -minWord xlen := by
    rw [minWord, neg_neg, ← pow_add]
    congr 1
    omega
  refine wrap_eq_of_eq_add (k := -1) (by omega) (fits_minWord xlen) ?_
  rw [hprod]
  ring

/-- 0 - 1 and 1 - 0 differ. -/
theorem exists_aluSub_ne_swap : ∃ a b, Fits xlen a ∧ Fits xlen b ∧ aluSub xlen a b ≠ aluSub xlen b a := by
  have h1 : Fits xlen 1 := fits_of_neg_two_to_one hx (by decide)
  have hleft : aluSub xlen 0 1 = -1 := wrap_eq_of_fits (by omega) (fits_of_neg_two_to_one hx (by decide)) (zero_sub 1)
  have hright : aluSub xlen 1 0 = 1 := wrap_eq_of_fits (by omega) h1 (sub_zero 1)
  refine ⟨0, 1, fits_of_neg_two_to_one hx (by decide), h1, ?_⟩
  rw [hleft, hright]
  decide

end Wraps

/-- Settles O11, row by row: a result in range is exact, and the others wrap by a multiple of twice MIN. -/
theorem boundaryResultsOfTheAlu : Obligations.BoundaryResultsOfTheAlu := by
  intro xlen hxlen
  have h1 : 1 ≤ xlen := by omega
  have h2 : 2 ≤ xlen := by omega
  have h0 : Fits xlen 0 := fits_of_neg_two_to_one h2 (by decide)
  exact ⟨fun a ha => wrap_eq_of_fits h1 ha (add_zero a), fun a _ _ => wrap_eq_of_fits h1 h0 (add_neg_cancel a),
    aluAdd_maxWord_one h2, aluAdd_minWord_neg_one h2, aluAdd_maxWord_maxWord h2, aluAdd_minWord_minWord h2,
    fun a _ => wrap_eq_of_fits h1 h0 (sub_self a), fun a ha => wrap_eq_of_fits h1 ha (sub_zero a),
    fun a ha hne => wrap_eq_of_fits h1 (fits_neg ha hne) (zero_sub a),
    aluSub_zero_minWord h2, aluSub_minWord_one h2, aluSub_maxWord_neg_one h2,
    aluSub_maxWord_minWord h2, aluSub_minWord_maxWord h2,
    fun a _ => ⟨wrap_eq_of_fits h1 h0 (mul_zero a), wrap_eq_of_fits h1 h0 (zero_mul a)⟩,
    fun a ha => wrap_eq_of_fits h1 ha (mul_one a),
    fun a ha hne => wrap_eq_of_fits h1 (fits_neg ha hne) (mul_neg_one a), aluMul_minWord_neg_one h2,
    fun _ _ ha hb hfit => aluMul_exact h1 hfit (0 < ·) (mul_pos ha hb),
    fun _ _ ha hb hfit => aluMul_exact h1 hfit (· < 0) (mul_neg_of_pos_of_neg ha hb),
    fun _ _ ha hb hfit => aluMul_exact h1 hfit (0 < ·) (mul_pos_of_neg_of_neg ha hb),
    aluMul_two_pow_half_self h2, aluMul_two_pow_half_pred h2,
    aluMul_maxWord_maxWord h2, aluMul_minWord_minWord h2, aluMul_maxWord_two h2,
    fun a b => ⟨aluAdd_comm xlen a b, aluMul_comm xlen a b⟩, exists_aluSub_ne_swap h2,
    fun a b => ⟨aluAdd_unsigned xlen a b, aluSub_unsigned xlen a b, aluMul_unsigned xlen a b⟩⟩

end Sys2Proof.Machine
end

section
/-!
SUPPORT and PROOFS. The input and output family (43_io.md): what the port transactions say of the two streams, and input
that is yet to be supplied.

A request with an input transaction runs a READ that takes the head of the input, one with an output transaction runs a
WRITE that appends to the output, and every other request leaves the stream alone.
-/

namespace Sys2Proof.Machine

/-! ### READ and WRITE, by the checks that pass (R120, R121) -/

theorem exec_write {s : State} {src : Operand} {v : Int} (hv : value s src = .ok v) :
    exec (.write src) s = .next (s.emit v).advance := by
  simp only [exec, execWrite, hv, attempt_ok]

theorem exec_read_of_target_error {s : State} {tgt : Int} {e : FaultRecord} (hr : target s tgt = .error e) :
    exec (.read tgt) s = .next (s.raise e) := by
  simp only [exec, execRead, hr, attempt_error]

theorem exec_read_of_input_nil {s : State} {tgt : Int} {r : Fin 16} (hr : target s tgt = .ok r) (hi : s.input = []) :
    exec (.read tgt) s = .next (s.raise ⟨.inputExhausted, 0⟩) := by
  simp only [exec, execRead, hr, takeInput_nil hi, attempt_ok, attempt_error]

/-! ### The items an instruction moves (R144, R145) -/

/-- The only instruction that takes an item is a READ whose target resolves. -/
theorem takesInput_iff {i : Instr} {s : State} : takesInput i s = true ↔ ∃ r : Fin 16, i = .read r.val := by
  cases i with
  | read tgt =>
    simp only [takesInput, Instr.read.injEq]
    cases hr : target s tgt with
    | ok r => simpa using ⟨r, target_eq_ok hr⟩
    | error e =>
      obtain ⟨hbad, -⟩ := slot_eq_error.1 hr
      simp only [Bool.false_eq_true, false_iff, not_exists]
      rintro r rfl
      exact hbad ⟨by omega, by omega⟩
  | _ => simp [takesInput]

/-- The only input transaction is a READ's, of the first item that remains. -/
theorem inputTransaction_eq_some {i : Instr} {s : State} {v : Int} :
    inputTransaction i s = some v ↔ ∃ (r : Fin 16) (rest : List Int), i = .read r.val ∧ s.input = v :: rest := by
  simp only [inputTransaction, Option.ite_none_right_eq_some, takesInput_iff, List.head?_eq_some_iff,
    exists_and_left, exists_and_right]

/-- The only output transaction is a WRITE's, of the value of its source. -/
theorem outputTransaction_eq_some {i : Instr} {s : State} {v : Int} :
    outputTransaction i s = some v ↔ ∃ src, i = .write src ∧ value s src = .ok v := by
  cases i with
  | write src =>
    simp only [outputTransaction, Instr.write.injEq, exists_eq_left']
    cases value s src <;> simp
  | _ => simp [outputTransaction]

/-- An instruction without an input transaction leaves the input alone. -/
theorem Effect.input_eq {i : Instr} {s t : State} (h : Effect i s t) (hn : inputTransaction i s = none) :
    t.input = s.input := by
  cases h with
  | consumedInput r v rest hi hin => simp [inputTransaction_eq_some.2 ⟨r, rest, hi, hin⟩] at hn
  | _ => rfl

/-- An instruction without an output transaction leaves the output alone. -/
theorem Effect.output_eq {i : Instr} {s t : State} (h : Effect i s t) (hn : outputTransaction i s = none) :
    t.output = s.output := by
  cases h with
  | emitted src v hi hv => simp [outputTransaction_eq_some.2 ⟨src, hi, hv⟩] at hn
  | _ => rfl

/-- What an instruction takes from the input and what it leaves are the input it met. -/
theorem input_of_exec {i : Instr} {s t : State} (h : exec i s = .next t) :
    s.input = (inputTransaction i s).toList ++ t.input := by
  cases htr : inputTransaction i s with
  | none => exact ((effect_of_exec h).input_eq htr).symm
  | some v =>
    obtain ⟨r, rest, rfl, hin⟩ := inputTransaction_eq_some.1 htr
    obtain rfl := Host.Outcome.next.inj ((exec_read (target_slot s r) hin).symm.trans h)
    simpa using hin

/-- What an instruction emits stands behind the output it met. -/
theorem output_of_exec {i : Instr} {s t : State} (h : exec i s = .next t) :
    t.output = s.output ++ (outputTransaction i s).toList := by
  cases htr : outputTransaction i s with
  | none => simpa using (effect_of_exec h).output_eq htr
  | some v =>
    obtain ⟨src, rfl, hv⟩ := outputTransaction_eq_some.1 htr
    obtain rfl := Host.Outcome.next.inj ((exec_write hv).symm.trans h)
    simp

/-! ### The items a step request, and a number of them, move (R123, R146) -/

/-- A request that runs no instruction leaves both streams alone. -/
theorem sameStreams_of_currentInstr_none {s : State} (h : currentInstr s = none) : SameStreams s (afterStep s) := by
  obtain hs | hs | ⟨e, hs⟩ := afterStep_of_currentInstr_none h <;> rw [hs] <;> exact ⟨rfl, rfl⟩

theorem input_afterStep (s : State) : s.input = (transactions s).input.toList ++ (afterStep s).input := by
  cases hi : currentInstr s with
  | none => simp [transactions, hi, (sameStreams_of_currentInstr_none hi).1]
  | some i => simpa [transactions, hi] using input_of_exec (exec_of_currentInstr hi)

theorem output_afterStep (s : State) : (afterStep s).output = s.output ++ (transactions s).output.toList := by
  cases hi : currentInstr s with
  | none => simp [transactions, hi, (sameStreams_of_currentInstr_none hi).2]
  | some i => simpa [transactions, hi] using output_of_exec (exec_of_currentInstr hi)

/-- The items at a port over a trace are those of its first step and then those of the rest. -/
theorem filterMap_transactionTrace_succ (port : Transactions → Option Int) (n : Nat) (s : State) :
    (transactionTrace (n + 1) s).filterMap port =
      (port (transactions s)).toList ++ (transactionTrace n (afterStep s)).filterMap port := by
  simp only [transactionTrace, List.filterMap_eq_flatMap_toList, List.flatMap_cons]

theorem input_afterSteps (n : Nat) (s : State) :
    s.input = (transactionTrace n s).filterMap (·.input) ++ (afterSteps n s).input := by
  induction n generalizing s with
  | zero => rfl
  | succ n ih =>
    rw [filterMap_transactionTrace_succ, afterSteps, List.append_assoc, ← ih]
    exact input_afterStep s

theorem output_afterSteps (n : Nat) (s : State) :
    (afterSteps n s).output = s.output ++ (transactionTrace n s).filterMap (·.output) := by
  induction n generalizing s with
  | zero => exact (List.append_nil _).symm
  | succ n ih => rw [filterMap_transactionTrace_succ, afterSteps, ih, output_afterStep, List.append_assoc]

/-- Settles O50, by induction on the number of requests: one request takes at most the head of the input and appends at
most one item to the output. -/
theorem portTransactionsAccountForTheStreams : Obligations.PortTransactionsAccountForTheStreams := fun n s =>
  ⟨input_afterSteps n s, output_afterSteps n s⟩

/-! ### Input that is yet to be supplied (R122) -/

theorem commutesWithExec_supplyInput (items : List Int) : CommutesWithExec fun s => s.supplyInput items where
  cfg _ := rfl
  getX _ _ := rfl
  cell _ _ := rfl
  setX _ _ _ := rfl
  setCell _ _ _ := rfl
  emit _ _ := rfl
  raise _ _ := rfl

/-- While an item remains, the items behind the offered ones play no part in taking it. -/
theorem takeInput_supplyInput {s : State} (h : s.input ≠ []) (items : List Int) :
    takeInput (s.supplyInput items) = (takeInput s).map (Prod.map id fun t => t.supplyInput items) := by
  obtain ⟨v, rest, hin⟩ := List.exists_cons_of_ne_nil h
  have hin' : (s.supplyInput items).input = v :: (rest ++ items) := congrArg (· ++ items) hin
  rw [takeInput_cons hin, takeInput_cons hin']
  rfl

/-- An instruction that does not exhaust the input commutes with supplying more of it: only a READ on an empty input
looks at what is supplied, and it raises InputExhausted unless its target is no register. -/
theorem exec_supplyInput {i : Instr} {s t : State} (items : List Int) (h : exec i s = .next t)
    (hne : ∀ e, t.fault = some e → e.kind ≠ .inputExhausted) :
    exec i (s.supplyInput items) = .next (t.supplyInput items) := by
  have hc := commutesWithExec_supplyInput items
  by_cases hread : ∃ tgt, i = .read tgt ∧ s.input = []
  · obtain ⟨tgt, rfl, hnil⟩ := hread
    cases hr : target s tgt with
    | ok r =>
      obtain rfl := Host.Outcome.next.inj ((exec_read_of_input_nil hr hnil).symm.trans h)
      exact absurd rfl (hne _ rfl)
    | error e =>
      obtain rfl := Host.Outcome.next.inj ((exec_read_of_target_error hr).symm.trans h)
      exact exec_read_of_target_error ((hc.target_eq s tgt).trans hr)
  · rw [hc.exec_comm s i fun tgt hi => takeInput_supplyInput (fun hnil => hread ⟨tgt, hi, hnil⟩) items, h, mapNext]

/-- Settles O49: the halt check, the fetch and the decoder do not look at the input, and the instruction commutes with
supplying more of it. -/
theorem laterInputPlaysNoPartInAStep : Obligations.LaterInputPlaysNoPartInAStep := by
  intro s t items hstep hne
  obtain ⟨hf, hh, ⟨hout, rfl⟩ | ⟨w, hw, -, ⟨hill, rfl⟩ | ⟨i, hd, hexec, -⟩⟩⟩ := step_eq_next hstep
  · exact step_of_outside (s := s.supplyInput items) hf hh hout
  · obtain ⟨d, hd⟩ := legal_eq_false.1 hill
    exact step_of_illegal (s := s.supplyInput items) ⟨hh, hf⟩ hw hd
  · exact (step_of_decode (s := s.supplyInput items) ⟨hh, hf⟩ hw hd).trans (exec_supplyInput items hexec hne)

end Sys2Proof.Machine
end

section
/-!
SUPPORT and PROOFS. The control flow family (44_control_flow.md): a jump taken, not taken, or with a bad address operand.
-/

namespace Sys2Proof.Machine

/-! ### A jump, by its operands and its condition (R130 to R135) -/

section Jump

variable {s : State} {c : Condition} {src addr : Operand} {v a : Int} (hv : value s src = .ok v)
include hv

theorem exec_jump_of_taken (ha : value s addr = .ok a) (hc : evaluate c v = true) :
    exec (Instr.jump c src addr) s = .next (s.setIp a) := by
  simp only [exec_jump, jumpWhen, hv, ha, attempt_ok, hc, if_true]

theorem exec_jump_of_not_taken (ha : value s addr = .ok a) (hc : evaluate c v = false) :
    exec (Instr.jump c src addr) s = .next s.advance := by
  simp only [exec_jump, jumpWhen, hv, ha, attempt_ok, hc, Bool.false_eq_true, if_false]

/-- The address operand is resolved before the condition is looked at (R135). -/
theorem exec_jump_of_addr_error {e : FaultRecord} (ha : value s addr = .error e) :
    exec (Instr.jump c src addr) s = .next (s.raise e) := by
  simp only [exec_jump, jumpWhen, hv, ha, attempt_ok, attempt_error]

end Jump

/-- Each condition has an integer of another sign on which it fails (R134). -/
theorem exists_evaluate_eq_false (c : Condition) : ∃ v, evaluate c v = false := by
  cases c with
  | zero => exact ⟨1, rfl⟩
  | positive => exact ⟨0, rfl⟩
  | negative => exact ⟨0, rfl⟩

/-- Settles O26: the step is the taken jump, which writes the ip alone; the state it leaves is running, so outside the
program the next step is the halt check. -/
theorem jumpTargetsAreAbsoluteAndUnchecked : Obligations.JumpTargetsAreAbsoluteAndUnchecked := by
  intro s w c src addr v a hs hw hd hv ha hc
  have hstep : step s = .next (s.setIp a) := (step_of_decode hs hw hd).trans (exec_jump_of_taken hv ha hc)
  have hrun : (s.setIp a).Running := hs
  rw [afterStep_of_next hstep]
  refine ⟨stepResult_of_continued hstep hrun, s.setIp_ip a, fun hout => ?_⟩
  have hout' : ¬ (s.setIp a).IpInProgram := by rwa [State.IpInProgram, State.setIp_ip, State.setIp_cfg]
  exact step_of_outside hrun.2 hrun.1 hout'

/-- Settles O27: of the three conditions 0 meets Zero only. -/
theorem jumpZeroOnLiteralZeroAlwaysTakes : Obligations.JumpZeroOnLiteralZeroAlwaysTakes := by
  refine ⟨fun s addr a ha => ?_, exists_evaluate_eq_false⟩
  have h0 := value_lit s 0
  exact ⟨exec_jump_of_taken (c := .zero) h0 ha rfl, exec_jump_of_not_taken (c := .positive) h0 ha rfl,
    exec_jump_of_not_taken (c := .negative) h0 ha rfl⟩

/-- Settles O28: the bad index is the error of the address operand. -/
theorem jumpResolvesAddrEvenWhenNotTaken : Obligations.JumpResolvesAddrEvenWhenNotTaken := fun _ _ _ _ _ hv hi =>
  exec_jump_of_addr_error hv (value_reg_error (not_inRange_iff.2 hi))

end Sys2Proof.Machine
end

section
/-!
SUPPORT and PROOFS. The interfaces family (45_interfaces.md): what the data port and the control port show of a step
request.

The data port has a read transaction for a LOAD and a write transaction for a STORE whose checks have passed, and no
other. The control port shows the state after the request, with the code and info of an error just surfaced.
-/

namespace Sys2Proof.Machine

/-! ### The data memory port (R143) -/

/-- The only instruction with a read transaction is a LOAD whose checks have passed. -/
theorem dataTransaction_eq_read {i : Instr} {s : State} {a v : Int} :
    dataTransaction i s = some (.read a v) ↔
      ∃ (memref : Operand) (tgt : Int) (r : Fin 16), i = .load memref tgt ∧ value s memref = .ok a ∧
        target s tgt = .ok r ∧ s.ValidAddress a ∧ v = s.cell a := by
  cases i with
  | load memref tgt =>
    simp only [dataTransaction, Instr.load.injEq]
    constructor
    · intro h
      split at h
      · next a' r ha hr =>
        split at h
        · next hb => cases h; exact ⟨memref, tgt, r, ⟨rfl, rfl⟩, ha, hr, hb, rfl⟩
        · cases h
      · cases h
      · cases h
    · rintro ⟨_, _, r, ⟨rfl, rfl⟩, ha, hr, hb, rfl⟩
      simp only [ha, hr, if_pos hb]
  | store src memref =>
    simp only [dataTransaction, reduceCtorEq, false_and, exists_false, iff_false]
    repeat' split
    all_goals simp
  | _ => simp [dataTransaction]

/-- A request with a read transaction reads at a valid address, and carries what the cell holds. -/
theorem cell_of_read {s : State} {a v : Int} (h : (transactions s).data = some (.read a v)) :
    s.ValidAddress a ∧ v = s.cell a := by
  obtain ⟨i, -, hd⟩ := transactions_data_eq_some.1 h
  obtain ⟨-, -, -, -, -, -, hb, hv⟩ := dataTransaction_eq_read.1 hd
  exact ⟨hb, hv⟩

/-- A request without a write transaction changes no cell. -/
theorem sameMemory_of_no_write {s : State} (h : ∀ a v, (transactions s).data ≠ some (.write a v)) :
    SameMemory s (afterStep s) := fun a => by
  rw [State.cell, afterStep_mem_of_no_write h, State.cell]

/-- A request with a write transaction writes its value at a valid address and changes no other cell. -/
theorem cell_of_write {s : State} (hm : s.mem.wf = true) {a v : Int} (h : (transactions s).data = some (.write a v)) :
    s.ValidAddress a ∧ (afterStep s).cell a = v ∧ SameMemoryBut a s (afterStep s) := by
  obtain ⟨hb, hs⟩ := afterStep_of_write h
  rw [hs]
  refine ⟨hb, ?_, sameMemoryBut_setCell s hm hb.1⟩
  rw [State.advance_cell, State.cell_setCell hm hb.1, if_pos rfl]

/-- Settles O51: a read transaction is a LOAD's and a write transaction a STORE's, exactly when the checks pass, and a
request changes no cell but the one its write transaction names. -/
theorem dataPortCarriesEveryAccess : Obligations.DataPortCarriesEveryAccess := by
  refine fun s hm => ⟨fun a v h => ?_, fun a v h => cell_of_write hm h, fun h => ?_,
    fun memref tgt a r hi ha hr hb => ?_, fun src memref v a hi hv ha hb => ?_⟩
  · obtain ⟨hb, hv⟩ := cell_of_read h
    exact ⟨hb, hv, sameMemory_of_no_write (by simp [h])⟩
  · exact sameMemory_of_no_write (by simp [h])
  · exact transactions_data_eq_some.2 ⟨_, hi, dataTransaction_eq_read.2 ⟨memref, tgt, r, rfl, ha, hr, hb, rfl⟩⟩
  · exact transactions_data_eq_some.2 ⟨_, hi, dataTransaction_eq_write.2 ⟨src, memref, rfl, hv, ha, hb⟩⟩

/-! ### The control and status port (R141, R161) -/

theorem statusOut_of_fault_none {s : State} (h : s.fault = none) : statusOut s = ⟨s.halted, false, 0, 0⟩ := by
  simp [statusOut, h]

theorem statusOut_of_fault {s : State} {e : FaultRecord} (h : s.fault = some e) :
    statusOut s = ⟨s.halted, true, causeCode e.kind, e.info⟩ := by
  simp [statusOut, h]

/-- With Error the code and info are those of the error surfaced, and `halted` and `fault` those of the state after the
request. -/
theorem controlOut_of_error {s : State} {e : FaultRecord} (h : stepResult s = some (.error e)) :
    controlOut s =
      some (2, ⟨(afterStep s).halted, (afterStep s).fault.isSome, causeCode e.kind, e.info⟩) := by
  simp only [controlOut, h]
  rfl

/-- A request that answers an error found it recorded, found the machine halted, or raises it. -/
theorem afterStep_of_error {s : State} {e : FaultRecord} (h : stepResult s = some (.error e)) :
    (s.fault = some e ∧ afterStep s = s) ∨
    (s.fault = none ∧ e.kind = .stepAfterHalt ∧ afterStep s = s) ∨
    (e.kind ≠ .stepAfterHalt ∧ afterStep s = s.raise e) := by
  obtain hf | ⟨e', hf⟩ := Option.eq_none_or_eq_some s.fault
  · obtain hh | hh := s.halted.eq_false_or_eq_true
    · obtain rfl : ⟨.stepAfterHalt, 0⟩ = e := by simpa [stepResult_of_halted hh hf] using h
      exact .inr (.inl ⟨hf, rfl, afterStep_of_halted hh⟩)
    · have hs : s.Running := ⟨hh, hf⟩
      obtain ⟨hout, -⟩ | ⟨e', hstep, hkind⟩ | ⟨i, t, -, -, hstep, hrun⟩ := step_of_running hs
      · simp [stepResult_of_outside hs hout] at h
      · obtain rfl : e' = e := by simpa [stepResult_of_raised hstep rfl] using h
        exact .inr (.inr ⟨hkind, afterStep_of_next hstep⟩)
      · simp [stepResult_of_continued hstep hrun] at h
  · obtain rfl : e' = e := by simpa [stepResult_of_fault hf] using h
    exact .inl ⟨hf, afterStep_of_fault hf⟩

/-- Settles O55: after an error `halted` is as before, and the fault record is empty only where StepAfterHalt met it
empty. -/
theorem controlPortShowsTheCause : Obligations.ControlPortShowsTheCause := by
  refine ⟨rfl, rfl, rfl, rfl, rfl, fun _ => statusOut_of_fault_none, fun _ _ => statusOut_of_fault, fun s e h => ?_⟩
  rw [controlOut_of_error h]
  obtain ⟨hf, hs⟩ | ⟨hf, hkind, hs⟩ | ⟨hkind, hs⟩ := afterStep_of_error h <;> rw [hs]
  · exact ⟨_, rfl, by simp [hf]⟩
  · exact ⟨_, rfl, by simp [hf, hkind]⟩
  · exact ⟨_, rfl, by simp [hkind]⟩

end Sys2Proof.Machine
end

section
/-!
SUPPORT and PROOFS. The exceptions family (60_exceptions.md): which error an instruction and a step can raise, and in
which order a step finds it.

`Effect.raised` says once which instruction raises which kind of error. No instruction raises IllegalInstruction: the
fetch does, at level B only.
-/

namespace Sys2Proof.Machine

/-! ### The error an instruction raises (60_exceptions.md section 2) -/

/-- An instruction raises RegisterOutOfRange for a bad index it names, MemoryOutOfBounds as a LOAD or STORE, or
InputExhausted as a READ. -/
theorem Effect.raised {i : Instr} {s t : State} {e : FaultRecord} (h : Effect i s t) (hf : s.fault = none)
    (he : t.fault = some e) :
    (e.kind = .registerOutOfRange ∧ ∃ k ∈ i.indices, ¬ InRange k) ∨
    (e.kind = .memoryOutOfBounds ∧ ∃ memref, (∃ tgt, i = .load memref tgt) ∨ ∃ src, i = .store src memref) ∨
    (e.kind = .inputExhausted ∧ ∃ tgt, i = .read tgt) := by
  cases h with
  | badIndex k hk hb =>
    obtain rfl := Option.some.inj he
    exact .inl ⟨rfl, k, hk, hb⟩
  | outOfBounds memref a hi =>
    obtain rfl := Option.some.inj he
    exact .inr (.inl ⟨rfl, memref, hi⟩)
  | inputExhausted tgt hi =>
    obtain rfl := Option.some.inj he
    exact .inr (.inr ⟨rfl, tgt, hi⟩)
  | _ => simp [hf] at he

theorem exec_ne_illegalInstruction {i : Instr} {s t : State} {e : FaultRecord} (h : exec i s = .next t)
    (hf : s.fault = none) (he : t.fault = some e) : e.kind ≠ .illegalInstruction := by
  obtain ⟨hkind, -⟩ | ⟨hkind, -⟩ | ⟨hkind, -⟩ := (effect_of_exec h).raised hf he <;> simp [hkind]

/-! ### LOAD and STORE when a check fails (R163) -/

theorem not_validAddress {s : State} {a : Int} (h : a < 0 ∨ (s.cfg.memCap : Int) ≤ a) : ¬ s.ValidAddress a := by
  rintro ⟨h0, hlt⟩
  omega

section FailedChecks

variable {s : State} {src memref : Operand} {tgt a : Int} {e : FaultRecord}

theorem exec_load_of_not_validAddress {r : Fin 16} (ha : value s memref = .ok a) (hr : target s tgt = .ok r)
    (hb : ¬ s.ValidAddress a) : exec (.load memref tgt) s = .next (s.raise ⟨.memoryOutOfBounds, a⟩) := by
  simp only [exec, execLoad, ha, hr, memRead_error hb, attempt_ok, attempt_error]

/-- The target is resolved before the address is checked (R88). -/
theorem exec_load_of_target_error (ha : value s memref = .ok a) (hr : target s tgt = .error e) :
    exec (.load memref tgt) s = .next (s.raise e) := by
  simp only [exec, execLoad, ha, hr, attempt_ok, attempt_error]

theorem exec_store_of_not_validAddress {v : Int} (hv : value s src = .ok v) (ha : value s memref = .ok a)
    (hb : ¬ s.ValidAddress a) : exec (.store src memref) s = .next (s.raise ⟨.memoryOutOfBounds, a⟩) := by
  simp only [exec, execStore, hv, ha, memWrite_error hb, attempt_ok, attempt_error]

theorem exec_store_of_src_error (hv : value s src = .error e) : exec (.store src memref) s = .next (s.raise e) := by
  simp only [exec, execStore, hv, attempt_error]

end FailedChecks

/-- Settles O30: both operands are resolved first, and then the address fails its check. -/
theorem outOfBoundsAddressesRaise : Obligations.OutOfBoundsAddressesRaise := by
  intro s src memref tgt a ha hout
  have hb := not_validAddress hout
  exact ⟨fun _ hr => exec_load_of_not_validAddress ha hr hb,
    fun _ hv => exec_store_of_not_validAddress hv ha hb,
    fun _ hr => exec_load_of_target_error ha hr, fun _ hv => exec_store_of_src_error hv⟩

/-- Settles O31: the target is resolved first, and then no item is left. -/
theorem readOnEmptyInputRaises : Obligations.ReadOnEmptyInputRaises := fun _ _ hi =>
  ⟨fun _ hr => exec_read_of_input_nil hr hi, fun _ hr => exec_read_of_target_error hr⟩

/-! ### Illegal words (R165, R167) -/

/-- A word fetched from a program of legal words is legal. -/
theorem legal_of_fetch {s : State} (hp : programLegal s.cfg.program = true) {w : InstrWord s.cfg.xlen}
    (hw : s.fetch = some w) : legal w = true := by
  obtain ⟨-, hget⟩ := fetch_eq_some.1 hw
  exact List.all_eq_true.1 hp w (List.mem_of_getElem? hget)

theorem step_of_not_legal {s : State} (hs : s.Running) {w : InstrWord s.cfg.xlen} (hw : s.fetch = some w)
    (hill : legal w = false) : step s = .next (s.raise ⟨.illegalInstruction, s.ip⟩) := by
  obtain ⟨d, hd⟩ := legal_eq_false.1 hill
  exact step_of_illegal hs hw hd

/-- Settles O37: only the fetch of an illegal word raises IllegalInstruction, and a program of legal words has none. -/
theorem illegalWordsRaiseAndValidatedProgramsDoNot : Obligations.IllegalWordsRaiseAndValidatedProgramsDoNot := by
  refine ⟨fun s w hf hh hw hill => step_of_not_legal ⟨hh, hf⟩ hw hill, fun s t e hp hf hstep he => ?_⟩
  obtain ⟨-, -, ⟨-, rfl⟩ | ⟨w, hw, -, ⟨hill, -⟩ | ⟨i, -, hexec, -⟩⟩⟩ := step_eq_next hstep
  · simp [hf] at he
  · simp [legal_of_fetch hp hw] at hill
  · exact exec_ne_illegalInstruction hexec hf he

/-- The two ways a step at level A is taken: the halt and the instruction. -/
theorem stepA_eq_next {p : List Instr} {s t : State} (h : stepA p s = .next t) :
    s.fault = none ∧ s.halted = false ∧
      ((fetchA p s = none ∧ t = s.halt) ∨ ∃ i, fetchA p s = some i ∧ exec i s = .next t) := by
  unfold stepA at h
  split at h
  · cases h
  · next hf =>
    split at h
    · cases h
    · next hh =>
      refine ⟨hf, by simpa using hh, ?_⟩
      split at h
      · next hn =>
        cases h
        exact .inl ⟨hn, rfl⟩
      · next i hi => exact .inr ⟨i, hi, h⟩

/-- Settles O53: at level A a step is the halt or an instruction, and no instruction raises IllegalInstruction. -/
theorem abstractStepNeverMeetsAnIllegalInstruction : Obligations.AbstractStepNeverMeetsAnIllegalInstruction := by
  intro p s t e hf hstep he
  obtain ⟨-, -, ⟨-, rfl⟩ | ⟨i, -, hexec⟩⟩ := stepA_eq_next hstep
  · simp [hf] at he
  · exact exec_ne_illegalInstruction hexec hf he

/-! ### The order of errors (R168) -/

/-- A step that is taken answers Error exactly when the state it leads to records that error. -/
theorem stepResult_eq_error_iff {s t : State} {e : FaultRecord} (h : step s = .next t) :
    stepResult s = some (.error e) ↔ t.fault = some e := by
  refine ⟨fun he => ?_, stepResult_of_raised h⟩
  cases hf : t.fault with
  | none => cases hh : t.halted <;> simp [stepResult, h, resultOf, hf, hh] at he
  | some e' => simpa [stepResult_of_raised h hf] using he

/-- Settles O34: `halted`, the halt check and the fetch come before the instruction; the instruction reports its first
bad register index, and with none it can raise its own kind of error only. -/
theorem errorsAreReportedInPriorityOrder : Obligations.ErrorsAreReportedInPriorityOrder := by
  refine fun s hf => ⟨fun hh => stepResult_of_halted hh hf, fun hh hout => stepResult_of_outside ⟨hh, hf⟩ hout,
    fun w hh hw => ⟨fun hill => stepResult_of_raised (step_of_not_legal ⟨hh, hf⟩ hw hill) rfl,
      fun i hd => ⟨fun k hk => ?_, fun hnone e he => ?_⟩⟩⟩
  · exact stepResult_of_raised ((step_of_decode ⟨hh, hf⟩ hw hd).trans (exec_of_firstBadIndex hk s)) rfl
  · obtain ⟨t, ht, heff⟩ := exec_effect i s
    have hfault := (stepResult_eq_error_iff ((step_of_decode ⟨hh, hf⟩ hw hd).trans ht)).1 he
    obtain ⟨-, k, hk, hbad⟩ | ⟨hkind, memref, hi⟩ | ⟨hkind, hread⟩ := heff.raised hf hfault
    · exact absurd (inRange_of_firstBadIndex_eq_none hnone hk) hbad
    · refine .inl ⟨hkind, ?_⟩
      obtain ⟨tgt, rfl⟩ | ⟨src, rfl⟩ := hi <;> simp
    · exact .inr ⟨hkind, hread⟩

end Sys2Proof.Machine
end

section
/-!
SUPPORT and PROOFS. The reset and hazards family (70_reset_and_hazards.md): no step blocks, so a step is taken exactly
while the state is running (R97, R199).
-/

namespace Sys2Proof.Machine

/-- The halt, an error and an instruction run in full each lead to a next state: no running state blocks. -/
theorem exists_step_of_running {s : State} (hs : s.Running) : ∃ t, step s = .next t := by
  obtain ⟨-, hstep⟩ | ⟨_, hstep, -⟩ | ⟨_, _, -, -, hstep, -⟩ := step_of_running hs
  · exact ⟨_, hstep⟩
  · exact ⟨_, hstep⟩
  · exact ⟨_, hstep⟩

theorem running_of_step_eq_next {s t : State} (h : step s = .next t) : s.Running := by
  obtain ⟨hf, hh, -⟩ := step_eq_next h
  exact ⟨hh, hf⟩

/-- Settles O41: none of a running state's three ways blocks, and a state that is not running has no next state. -/
theorem aStepIsTakenExactlyWhileRunning : Obligations.AStepIsTakenExactlyWhileRunning := fun _ =>
  ⟨exists_step_of_running, fun ⟨_, h⟩ => running_of_step_eq_next h⟩

end Sys2Proof.Machine
end

section
/-!
SUPPORT and PROOFS. The invariant of machine states (10_state.md sections 2 to 6): reset meets it, and every step keeps
it.

Each write to the state keeps the invariant when the written value fits and the state is not halted; `Effect.inv` then
goes through the effects of an instruction once.
-/

namespace Sys2Proof.Machine

/-! ### Values that fit (R4) -/

theorem wf_of_decode {xlen : Nat} (hx : 1 ≤ xlen) {w : InstrWord xlen} {i : Instr} (h : decode w = .ok i) :
    i.wf xlen = true :=
  (decodeAndEncodeAreInverse xlen hx).2 w i h |>.1

/-- What a memory reads at an address is one of its entries or 0. -/
theorem Memory.read_eq_zero_or_mem (m : Memory) (a : Nat) : m.read a = 0 ∨ (a, m.read a) ∈ m := by
  induction m with
  | nil => exact .inl rfl
  | cons c m ih =>
    obtain ⟨b, w⟩ := c
    simp only [Memory.read]
    split
    · next h => exact .inr (h ▸ List.mem_cons_self)
    · exact ih.imp_right (List.mem_cons_of_mem _)

/-! ### The invariant and the writes to the state -/

namespace State.Inv

variable {s : State} (hs : s.Inv)
include hs

theorem one_le_xlen : 1 ≤ s.cfg.xlen := Config.one_le_xlen hs.config

theorem fits_wrap (z : Int) : Fits s.cfg.xlen (wrap s.cfg.xlen z) := wrap_fits hs.one_le_xlen z

theorem fits_zero : Fits s.cfg.xlen 0 := fits_of_lt_two_pow_31 (config_wf_iff.1 hs.config).1 le_rfl (by decide)

theorem fits_cell (a : Int) : Fits s.cfg.xlen (s.cell a) := by
  unfold State.cell
  split
  · obtain h0 | hmem := Memory.read_eq_zero_or_mem s.mem a.toNat
    · exact h0 ▸ hs.fits_zero
    · exact (hs.memoryCells _ hmem).2
  · exact hs.fits_zero

theorem setX (hh : s.halted = false) (r : Fin 16) {v : Int} (hv : Fits s.cfg.xlen v) : (s.setX r v).Inv :=
  { hs with
    registers := fun j => by
      rw [State.getX_setX]
      split
      · exact hv
      · exact hs.registers j
    haltedOutside := fun h => absurd (hh.symm.trans h) Bool.false_ne_true }

theorem advance (hh : s.halted = false) : s.advance.Inv := hs.setX hh 15 (hs.fits_wrap _)

theorem setX_advance (hh : s.halted = false) (r : Fin 16) {v : Int} (hv : Fits s.cfg.xlen v) :
    (s.setX r v).advance.Inv :=
  (hs.setX hh r hv).advance hh

theorem setCell {a v : Int} (ha : s.ValidAddress a) (hv : Fits s.cfg.xlen v) : (s.setCell a v).Inv :=
  { hs with
    memoryForm := Memory.wf_write _ _ _ hs.memoryForm
    memoryCells := fun c hc => by
      obtain rfl | hc := Memory.mem_write hc
      · exact ⟨(Int.toNat_lt ha.1).2 ha.2, hv⟩
      · exact hs.memoryCells c hc }

theorem withInput {rest : List Int} (hsub : ∀ v ∈ rest, v ∈ s.input) : (s.withInput rest).Inv :=
  { hs with inputItems := fun v hv => hs.inputItems v (hsub v hv) }

theorem emit {v : Int} (hv : Fits s.cfg.xlen v) : (s.emit v).Inv :=
  { hs with
    outputItems := fun u hu => by
      obtain hu | hu := List.mem_append.1 hu
      · exact hs.outputItems u hu
      · exact List.mem_singleton.1 hu ▸ hv }

theorem raise (hh : s.halted = false) {e : FaultRecord} (hk : e.kind ≠ .stepAfterHalt)
    (hi : Fits s.cfg.xlen e.info) : (s.raise e).Inv :=
  { hs with
    haltedOutside := fun h => absurd (hh.symm.trans h) Bool.false_ne_true
    faultLegal := fun _ hr => Option.some.inj hr ▸ ⟨hk, hi⟩ }

theorem halt (hf : s.fault = none) (hout : ¬ s.IpInProgram) : s.halt.Inv :=
  { hs with haltedOutside := fun _ => ⟨hf, hout⟩ }

end State.Inv

/-! ### Reset (R26) -/

theorem resetWith_inv {cfg : Config} {input : List Int} (hwf : cfg.wf = true)
    (hin : ∀ v ∈ input, Fits cfg.xlen v) : (State.resetWith cfg input).Inv where
  config := hwf
  registers i := by
    rw [State.resetWith_getX]
    exact fits_of_lt_two_pow_31 (config_wf_iff.1 hwf).1 le_rfl (by decide)
  memoryForm := Memory.wf_reset cfg input
  memoryCells := nofun
  inputItems := hin
  outputItems := nofun
  haltedOutside := nofun
  faultLegal := nofun

/-- Settles O44: zeros fit, memory and output are empty, and the reference configuration is within its bounds. -/
theorem resetMeetsTheInvariant : Obligations.ResetMeetsTheInvariant :=
  ⟨fun _ _ => resetWith_inv, resetWith_inv (by decide) nofun⟩

/-! ### The step -/

/-- The operands of an instruction that a word carries have XLEN-bit values. -/
theorem source_fits {s : State} (hs : s.Inv) {i : Instr} (hi : i.wf s.cfg.xlen = true) {o : Operand} {v : Int}
    (ho : o ∈ i.sources) (hv : value s o = .ok v) : Fits s.cfg.xlen v :=
  value_fits hs ((Instr.wf_iff.1 hi).1 o ho) hv

/-- What an instruction writes to its target is a source's value, a cell or a wrapped result. -/
theorem Computes.fits {i : Instr} {s : State} {v : Int} (h : Computes i s v) (hs : s.Inv)
    (hi : i.wf s.cfg.xlen = true) : Fits s.cfg.xlen v := by
  cases i with
  | cp src tgt => exact source_fits hs hi (List.mem_singleton_self src) h
  | load memref tgt =>
    obtain ⟨a, -, -, rfl⟩ := h
    exact hs.fits_cell a
  | add | mul | sub =>
    obtain ⟨p, q, -, -, rfl⟩ := h
    exact hs.fits_wrap _
  | _ => exact h.elim

/-- An instruction that a word carries keeps the invariant, whichever effect it has. -/
theorem Effect.inv {i : Instr} {s t : State} (h : Effect i s t) (hs : s.Inv) (hi : i.wf s.cfg.xlen = true)
    (hh : s.halted = false) : t.Inv := by
  cases h with
  | wroteRegister r v _ hv => exact hs.setX_advance hh r (hv.fits hs hi)
  | consumedInput r v rest _ hin =>
    have hsub : ∀ u ∈ rest, u ∈ s.input := fun u hu => hin ▸ List.mem_cons_of_mem v hu
    exact (hs.withInput hsub).setX_advance hh r (hs.inputItems v (hin ▸ List.mem_cons_self))
  | stored src memref v a hi' hv ha hb =>
    have hfit := source_fits hs hi (o := src) (by simp [hi', Instr.sources]) hv
    exact (hs.setCell hb hfit).advance hh
  | emitted src v hi' hv =>
    have hfit := source_fits hs hi (o := src) (by simp [hi', Instr.sources]) hv
    exact (hs.emit hfit).advance hh
  | jumped c src addr v a hi' _ ha _ =>
    have hfit := source_fits hs hi (o := addr) (by cases c <;> simp [hi', Instr.jump, Instr.sources]) ha
    exact hs.setX hh 15 hfit
  | fellThrough => exact hs.advance hh
  | badIndex k _ _ => exact hs.raise hh (by simp [badRegister]) (hs.fits_wrap k)
  | outOfBounds memref a hi' ha _ =>
    have hmem : memref ∈ i.sources := by obtain ⟨_, rfl⟩ | ⟨_, rfl⟩ := hi' <;> simp [Instr.sources]
    exact hs.raise hh (by simp) (source_fits hs hi hmem ha)
  | inputExhausted => exact hs.raise hh (by simp) hs.fits_zero

/-- Settles O43: the halt check, the illegal word and the effects of an instruction each keep the invariant. -/
theorem stepKeepsTheInvariant : Obligations.StepKeepsTheInvariant := by
  intro s t hs h
  obtain ⟨hf, hh, ⟨hout, rfl⟩ | ⟨w, -, -, ⟨-, rfl⟩ | ⟨i, hd, -, heff⟩⟩⟩ := step_eq_next h
  · exact hs.halt hf hout
  · exact hs.raise hh (by simp) (hs.registers 15)
  · exact heff.inv hs (wf_of_decode hs.one_le_xlen hd) hh

end Sys2Proof.Machine
end

section
/-!
SUPPORT and PROOFS. The two levels of the machine (00_scope.md section 3, R2): on the words of a list of instructions
the binary step is the abstract step.
-/

namespace Sys2Proof.Machine

open Sys2Proof.Assembly

/-- Fetching from the words of a list is fetching from the list and encoding. -/
theorem fetch_of_programWords {s : State} {p : List Instr} (hp : s.cfg.program = programWords s.cfg.xlen p) :
    s.fetch = (fetchA p s).map (encode s.cfg.xlen) := by
  unfold State.fetch fetchA
  split
  · rw [hp, programWords, List.getElem?_map]
  · rfl

theorem mem_of_fetchA {s : State} {p : List Instr} {i : Instr} (h : fetchA p s = some i) : i ∈ p := by
  obtain ⟨-, hget⟩ := Option.ite_none_right_eq_some.1 h
  exact List.mem_of_getElem? hget

section StepA

variable {s : State} {p : List Instr}

theorem stepA_of_fault {e : FaultRecord} (h : s.fault = some e) : stepA p s = .fault (.faulted e) := by
  simp only [stepA, h]

theorem stepA_of_halted (hf : s.fault = none) (hh : s.halted = true) : stepA p s = .fault .stepAfterHalt := by
  simp [stepA, hf, hh]

theorem stepA_of_outside (hs : s.Running) (h : fetchA p s = none) : stepA p s = .next s.halt := by
  simp [stepA, hs.1, hs.2, h]

theorem stepA_of_fetchA (hs : s.Running) {i : Instr} (h : fetchA p s = some i) : stepA p s = exec i s := by
  simp [stepA, hs.1, hs.2, h]

end StepA

/-- In a running state both levels fetch the same: nothing, or an instruction and its word, which decodes to it. -/
theorem step_eq_stepA_of_running {s : State} {p : List Instr} (hs : s.Running) (hx : 1 ≤ s.cfg.xlen)
    (hwf : ∀ i ∈ p, i.wf s.cfg.xlen = true) (hp : s.cfg.program = programWords s.cfg.xlen p) :
    step s = stepA p s := by
  have hfetch := fetch_of_programWords hp
  cases hA : fetchA p s with
  | none =>
    have hout : ¬ s.IpInProgram := fetch_eq_none.1 (by rw [hfetch, hA, Option.map_none])
    rw [step_of_outside hs.2 hs.1 hout, stepA_of_outside hs hA]
  | some i =>
    have hw : s.fetch = some (encode s.cfg.xlen i) := by rw [hfetch, hA, Option.map_some]
    have hdec := (decode_encode_eq_ok_iff hx).2 (hwf i (mem_of_fetchA hA))
    rw [step_of_decode hs hw hdec, stepA_of_fetchA hs hA]

/-- Settles O52: a request that is not performed is refused at both levels alike, and a running state's step is that of
the instruction whose word the binary machine fetches. -/
theorem binaryStepRefinesTheAbstractStep : Obligations.BinaryStepRefinesTheAbstractStep := by
  intro s p hx hwf hp
  cases hf : s.fault with
  | some e => rw [step_of_fault hf, stepA_of_fault hf]
  | none =>
    cases hh : s.halted with
    | true => rw [step_of_halted hf hh, stepA_of_halted hf hh]
    | false => exact step_eq_stepA_of_running ⟨hh, hf⟩ hx hwf hp

end Sys2Proof.Machine
end

section
/-!
SUPPORT and PROOFS. Assembly text (30_encoding.md Part C): the text of an instruction reads back, and the spec's example
lines.
-/

namespace Sys2Proof

open Sys2Proof.Assembly

/-- When the text of each source operand and of the target reads back, so do the arguments. -/
theorem instrOf_argTexts {xlen : Nat} {i : Instr}
    (ho : ∀ o ∈ i.sources, operandToken xlen (operandText o) = some o)
    (ht : ∀ t ∈ i.target?, targetToken (targetText t) = some t) :
    instrOf xlen i.mnemonic i.argTexts = some i := by
  cases i with
  | cp | load | store | add | mul | sub | read | write =>
    simp only [Instr.sources, Instr.target?, List.mem_cons, List.not_mem_nil, or_false, forall_eq_or_imp, forall_eq,
      Option.mem_some] at ho ht
    simp [Instr.argTexts, Instr.sources, Instr.target?, instrOf, ho, ht]
  | jumpZero | jumpPos | jumpNeg =>
    simp only [Instr.sources, List.mem_cons, List.not_mem_nil, or_false, forall_eq_or_imp, forall_eq] at ho
    simp [Instr.argTexts, Instr.sources, Instr.target?, instrOf, conditionToken_conditionText, ho, Instr.jump]

theorem inRange_of_mem_indices {i : Instr} (h : i.indicesInRange = true) {k : Int} (hk : k ∈ i.indices) : InRange k :=
  of_decide_eq_true (List.all_eq_true.1 h k hk)

/-- Settles O57: a carried operand with an index in range and a target in range each read back from their text. -/
theorem assemblingTheTextGivesTheInstruction : Obligations.AssemblingTheTextGivesTheInstruction := by
  intro xlen i hwf hin
  have hsrc : ∀ o ∈ i.sources, operandToken xlen (operandText o) = some o := fun o ho =>
    operandToken_operandText ((Instr.wf_iff.1 hwf).1 o ho) fun k hk =>
      inRange_of_mem_indices hin (List.mem_append_left _ (List.mem_filterMap.2 ⟨o, ho, hk⟩))
  have htgt : ∀ t ∈ i.target?, targetToken (targetText t) = some t := fun t ht =>
    targetToken_targetText (inRange_of_mem_indices hin (List.mem_append_right _ (Option.mem_toList.2 ht)))
  rw [assembleLine_instrText, instrOf_argTexts hsrc htgt]

/-- Settles O56, each line by running the assembler. -/
theorem exampleLinesAssemble : Obligations.ExampleLinesAssemble := by
  unfold Obligations.ExampleLinesAssemble
  decide

end Sys2Proof
end

section
/-!
SUPPORT and PROOFS. The encoding family (30_encoding.md Part B, 20_memory.md section 3): the spec's words, the match and
mask rows, the grounds on which a word is illegal, and serialised words and cells.
-/

namespace Sys2Proof

open Sys2Proof.Machine

/-- Settles O1, each word by running the decoder. -/
theorem writtenOutWordsDecode : Obligations.WrittenOutWordsDecode := by
  unfold Obligations.WrittenOutWordsDecode
  decide

/-! ### Match and mask (30_encoding.md B.4) -/

/-- A row is selected by exactly the words that decode to its form. -/
theorem selects_iff_exists_decode {xlen : Nat} {w : InstrWord xlen} {k : Nat} {r : OpcodeRow xlen}
    (hr : (opcodeRows xlen)[k]? = some r) : r.selects w = true ↔ ∃ i, decode w = .ok i ∧ k = rowIndex i := by
  have hk : k < 11 := (List.getElem?_eq_some_iff.1 hr).1
  simp only [decode, decodeFields_eq_ok, or_and_right, exists_or, and_assoc, exists_and_left, exists_eq_left, rowIndex]
  -- Row by row: the fixed fields of the row are those the decoder asks of its form.
  interval_cases k <;> obtain rfl := Option.some.inj hr <;> simp [selects_rowOf, and_assoc, and_comm, and_left_comm]

/-- Settles O3: a decoded word has one instruction and so one row, an illegal word has none. -/
theorem matchMaskRowsSelectTheDecodedForm : Obligations.MatchMaskRowsSelectTheDecodedForm := by
  refine fun xlen w => ⟨fun i hd k r hr => ?_, fun e hd r hr => ?_⟩
  · simp [selects_iff_exists_decode hr, hd]
  · obtain ⟨k, hk⟩ := List.mem_iff_getElem?.1 hr
    simpa [hd] using (selects_iff_exists_decode (w := w) hk).not.2

/-! ### Illegal words (R64) -/

/-- The fields that decode are on none of the four grounds. -/
theorem exists_decodeFields_iff {xlen : Nat} (f : Fields xlen) :
    (∃ i, decodeFields f = .ok i) ↔
      ¬ ((f.op = 0 ∨ 10 ≤ f.op.toNat) ∨ (f.op = 9 ∧ f.cond = 3) ∨ (f.op ≠ 9 ∧ f.cond ≠ 0) ∨
        (f.op ∉ [1, 2, 3, 4, 5, 6, 8, 9] ∧ (f.am ≠ 0 ∨ f.a ≠ 0)) ∨
        (f.op ∉ [3, 4, 5, 6, 9] ∧ (f.bm ≠ 0 ∨ f.b ≠ 0)) ∨ (f.op ∉ [1, 2, 4, 5, 6, 7] ∧ f.tgt ≠ 0)) := by
  obtain ⟨op, cond, am, bm, tgt, a, b⟩ := f
  have hcond : (cond = 0#2 ∨ cond = 1#2 ∨ cond = 2#2) ↔ ¬ cond = 3#2 := by
    revert cond
    decide
  simp only [decodeFields_eq_ok, exists_or, exists_and_left, exists_eq, and_true]
  -- Opcode by opcode.
  obtain ⟨n, hn, rfl⟩ : ∃ n < 16, op = BitVec.ofNat 4 n := ⟨op.toNat, op.isLt, by simp⟩
  interval_cases n <;> simp [and_assoc, ← or_and_right, hcond]

/-- Settles O5: what is not on one of the four grounds decodes. -/
theorem illegalWordsAreExactlyTheFourGrounds : Obligations.IllegalWordsAreExactlyTheFourGrounds := by
  intro xlen w
  rw [← Bool.not_eq_true, legal_eq_true]
  exact (exists_decodeFields_iff (fieldsOf w)).not.trans not_not

/-! ### Serialised words and cells (R38) -/

section Bytes

variable {n : Nat} (w : BitVec n)

/-- The bytes that hold n bits read back as the value of those bits. -/
theorem deserialise_serialise_toNat : deserialise (serialise ((n + 7) / 8) w.toNat) = w.toNat :=
  deserialise_serialise (lt_bytes w.isLt)

/-- Byte j holds bits 8j+7 .. 8j. -/
theorem getElem?_serialise_toNat {m j : Nat} (h : j < m) :
    (serialise m w.toNat)[j]? = some (w.extractLsb' (8 * j) 8) := by
  rw [getElem?_serialise h, BitVec.extractLsb', Nat.shiftRight_eq_div_pow, pow_mul]
  rfl

end Bytes

theorem wordOfBytes_serialise {xlen : Nat} (w : InstrWord xlen) :
    wordOfBytes xlen (serialise (wordBytes xlen) w.toNat) = some w := by
  have hval : deserialise (serialise (wordBytes xlen) w.toNat) = w.toNat := deserialise_serialise_toNat w
  rw [wordOfBytes, hval, if_pos ⟨length_serialise _ _, w.isLt⟩, BitVec.ofNat_toNat, BitVec.setWidth_eq]

/-- The bits of an integer that fits, read as signed, are the integer. -/
theorem toInt_ofInt_of_fits {xlen : Nat} (hx : 1 ≤ xlen) {v : Int} (hv : Fits xlen v) :
    (BitVec.ofInt xlen v).toInt = v := by
  rw [BitVec.toInt_ofInt]
  exact wrap_of_fits hx hv

theorem cellOfBytes_serialiseCell {xlen : Nat} (hx : 1 ≤ xlen) {v : Int} (hv : Fits xlen v) :
    cellOfBytes xlen (serialiseCell xlen v) = some v := by
  have hval : deserialise (serialiseCell xlen v) = (BitVec.ofInt xlen v).toNat := deserialise_serialise_toNat _
  rw [cellOfBytes, hval, if_pos ⟨length_serialiseCell xlen v, BitVec.isLt _⟩, BitVec.ofNat_toNat,
    BitVec.setWidth_eq, toInt_ofInt_of_fits hx hv]

/-- Settles O6: the bytes are those of the bits, of a word's own and of a cell's two's complement. -/
theorem serialisedWordsReadBack : Obligations.SerialisedWordsReadBack :=
  ⟨fun _ w => ⟨wordOfBytes_serialise w, fun _ => getElem?_serialise_toNat w⟩,
    fun _ _ hx hv => ⟨cellOfBytes_serialiseCell hx hv, fun _ => getElem?_serialise_toNat _⟩⟩

end Sys2Proof
end

section
/-!
SUPPORT and PROOFS. Wrapping and the conditions (00_scope.md section 5.1, 40_step_and_operands.md section 3).
-/

namespace Sys2Proof.Machine

/-- Settles O10: wrapping differs by a multiple of 2^XLEN, and of the integers that do only one fits. -/
theorem wrapIsTheUniqueCongruentWord : Obligations.WrapIsTheUniqueCongruentWord := by
  intro xlen z w hx
  constructor
  · rintro rfl
    exact ⟨wrap_fits hx z, wrap_congr xlen z⟩
  · rintro ⟨hfit, k, hk⟩
    have hmod : z ≡ w [ZMOD 2 ^ xlen] := Int.modEq_iff_dvd.2 ⟨k, by rw [hk]; ring⟩
    rw [wrap_eq_wrap_of_modEq hmod, wrap_of_fits hx hfit]

@[simp] theorem evaluate_zero_iff {v : Int} : evaluate .zero v = true ↔ v = 0 := decide_eq_true_iff
@[simp] theorem evaluate_positive_iff {v : Int} : evaluate .positive v = true ↔ 0 < v := decide_eq_true_iff
@[simp] theorem evaluate_negative_iff {v : Int} : evaluate .negative v = true ↔ v < 0 := decide_eq_true_iff

theorem maxWord_pos {xlen : Nat} (h : 2 ≤ xlen) : 0 < maxWord xlen := by
  have hfit : Fits xlen 1 := fits_of_neg_two_to_one h (by decide)
  exact Int.lt_of_lt_of_le one_pos hfit.2

/-- The one condition that an integer meets, by its sign. -/
theorem exists_evaluate_iff (v : Int) : ∃ c, ∀ d, evaluate d v = true ↔ d = c := by
  obtain hv | hv | hv := lt_trichotomy v 0
  · exact ⟨.negative, fun d => by cases d <;> simp <;> omega⟩
  · exact ⟨.zero, fun d => by cases d <;> simp <;> omega⟩
  · exact ⟨.positive, fun d => by cases d <;> simp <;> omega⟩

/-- Settles O9: each condition is its sign test, and an integer has one sign. -/
theorem conditionsClassifyEveryInteger : Obligations.ConditionsClassifyEveryInteger := by
  refine ⟨fun v => ⟨evaluate_zero_iff, evaluate_positive_iff, evaluate_negative_iff⟩, fun v => ?_, fun xlen hx => ?_⟩
  · obtain ⟨c, hc⟩ := exists_evaluate_iff v
    exact ⟨c, (hc c).2 rfl, fun d => (hc d).1⟩
  · exact ⟨evaluate_negative_iff.2 (minWord_neg xlen), evaluate_positive_iff.2 (maxWord_pos (by omega))⟩

end Sys2Proof.Machine
end

section
/-!
SUPPORT and PROOFS. What each instruction does when its checks pass, with its frame (41_data_movement.md to
44_control_flow.md): the state it answers is the one write of the instruction and the advance.
-/

namespace Sys2Proof.Machine

/-- Settles O12: the source value is written. -/
theorem cpWritesTheSourceValue : Obligations.CpWritesTheSourceValue := fun s _ _ v r hv hr =>
  ⟨_, exec_cp hv hr, wroteAndAdvanced_setX s r v, onlyRegistersChanged_setX s r v⟩

/-- Settles O13: the cell is written to the target. -/
theorem loadWritesTheAddressedCell : Obligations.LoadWritesTheAddressedCell := fun s _ _ _ r ha hr h0 hlt =>
  ⟨_, exec_load ha hr ⟨h0, hlt⟩, wroteAndAdvanced_setX s r _, onlyRegistersChanged_setX s r _⟩

/-- Settles O14: the value is written to the cell. -/
theorem storeWritesTheAddressedCell : Obligations.StoreWritesTheAddressedCell := by
  intro s src memref v a hm hv ha h0 hlt
  refine ⟨_, exec_store hv ha ⟨h0, hlt⟩, ?_, sameMemoryBut_setCell s hm h0, onlyAdvanced_advance _, ⟨rfl, rfl, rfl⟩,
    ⟨rfl, rfl⟩⟩
  rw [State.advance_cell, State.cell_setCell hm h0, if_pos rfl]

/-- Settles O15: the wrapped sum is written. -/
theorem addWritesTheWrappedSum : Obligations.AddWritesTheWrappedSum := fun s _ _ _ _ _ r hp hq hr =>
  ⟨_, exec_add hp hq hr, wroteAndAdvanced_setX s r _, onlyRegistersChanged_setX s r _⟩

/-- Settles O16: the wrapped product is written. -/
theorem mulWritesTheWrappedProduct : Obligations.MulWritesTheWrappedProduct := fun s _ _ _ _ _ r hp hq hr =>
  ⟨_, exec_mul hp hq hr, wroteAndAdvanced_setX s r _, onlyRegistersChanged_setX s r _⟩

/-- Settles O17: the wrapped difference is written. -/
theorem subWritesTheWrappedDifference : Obligations.SubWritesTheWrappedDifference := fun s _ _ _ _ _ r hp hq hr =>
  ⟨_, exec_sub hp hq hr, wroteAndAdvanced_setX s r _, onlyRegistersChanged_setX s r _⟩

/-- Settles O18: the item is written to the target of the state without it. -/
theorem readConsumesTheNextItem : Obligations.ReadConsumesTheNextItem := fun s _ v rest r hr hin =>
  ⟨_, exec_read hr hin, rfl, wroteAndAdvanced_setX (s.withInput rest) r v, fun _ => rfl, ⟨rfl, rfl, rfl⟩, rfl⟩

/-- Settles O19: the value is appended. -/
theorem writeAppendsToTheOutput : Obligations.WriteAppendsToTheOutput := fun s _ v hv =>
  ⟨_, exec_write hv, rfl, onlyAdvanced_advance (s.emit v), fun _ => rfl, ⟨rfl, rfl, rfl⟩, rfl⟩

/-- Settles O20: a jump that is taken writes the ip alone, and one that is not only advances. -/
theorem jumpTakesOrAdvances : Obligations.JumpTakesOrAdvances := by
  intro s c src addr v a hv ha
  cases hc : evaluate c v with
  | true =>
    exact ⟨_, exec_jump_of_taken hv ha hc, by simp, fun j hj => by simp [hj], onlyRegistersChanged_setIp s a⟩
  | false =>
    obtain ⟨hip, hregs⟩ := onlyAdvanced_advance s
    exact ⟨_, exec_jump_of_not_taken hv ha hc, by rw [hip, if_neg Bool.false_ne_true], hregs, onlyRegistersChanged_advance s⟩

end Sys2Proof.Machine
end

section
/-!
SUPPORT and PROOFS. Steps and runs (40_step_and_operands.md sections 1 and 7, 60_exceptions.md section 2).
-/

namespace Sys2Proof.Machine

/-- Settles O35: the word at the ip is the one fetched. -/
theorem stepRunsTheDecodedInstruction : Obligations.StepRunsTheDecodedInstruction := fun _ _ _ hf hh h0 hw hd =>
  step_of_decode ⟨hh, hf⟩ (fetch_eq_some.2 ⟨h0, hw⟩) hd

/-- Settles O32: the kind of the error raised names the instructions that raise it. -/
theorem onlyTheListedInstructionsRaise : Obligations.OnlyTheListedInstructionsRaise := by
  intro s t i e hf h he
  obtain ⟨hkind, -⟩ | ⟨hkind, memref, hi⟩ | ⟨hkind, hi⟩ := (effect_of_exec h).raised hf he
  · simp [hkind]
  · refine ⟨fun _ => hi.imp (fun hl => ⟨memref, hl⟩) fun ⟨src, hst⟩ => ⟨src, memref, hst⟩, ?_⟩
    simp [hkind]
  · exact ⟨by simp [hkind], fun _ => hi, by simp [hkind], by simp [hkind]⟩

/-! ### How a run ended (R95, R97) -/

/-- What the status of the state a run stands in says of how far the run has come. -/
def RunEnd.StatusAgrees : RunEnd → Prop
  | .halted t => t.EndedNormally
  | .error e t => t.fault = some e ∧ t.halted = false
  | .running t => t.Running

/-- The three ways a run from a running state goes on: it ends halted, ends with an error, or runs on. -/
theorem run_succ_of_running (n : Nat) {s : State} (hs : s.Running) :
    (run (n + 1) s = .halted s.halt ∧ afterStep s = s.halt) ∨
    (∃ e, run (n + 1) s = .error e (s.raise e) ∧ afterStep s = s.raise e) ∨
    ((afterStep s).Running ∧ run (n + 1) s = run n (afterStep s)) := by
  obtain ⟨hout, -⟩ | ⟨e, hstep, -⟩ | ⟨i, t, -, -, hstep, ht⟩ := step_of_running hs
  · have hafter := afterStep_of_outside hs hout
    exact .inl ⟨by simp only [run, stepResult_of_outside hs hout, hafter], hafter⟩
  · have hafter := afterStep_of_next hstep
    exact .inr (.inl ⟨e, by simp only [run, stepResult_of_raised hstep rfl, hafter], hafter⟩)
  · have hafter := afterStep_of_next hstep
    exact .inr (.inr ⟨hafter ▸ ht, by simp only [run, stepResult_of_continued hstep ht]⟩)

theorem run_statusAgrees (n : Nat) {s : State} (hs : s.Running) : (run n s).StatusAgrees := by
  induction n generalizing s with
  | zero => exact hs
  | succ n ih =>
    obtain ⟨hrun, -⟩ | ⟨e, hrun, -⟩ | ⟨hnext, hrun⟩ := run_succ_of_running n hs <;> rw [hrun]
    · exact ⟨rfl, hs.2⟩
    · exact ⟨rfl, hs.1⟩
    · exact ih hnext

/-- The requests a run does not make after its end would change nothing. -/
theorem run_state (n : Nat) {s : State} (hs : s.Running) : (run n s).state = afterSteps n s := by
  induction n generalizing s with
  | zero => rfl
  | succ n ih =>
    obtain ⟨hrun, hafter⟩ | ⟨e, hrun, hafter⟩ | ⟨hnext, hrun⟩ := run_succ_of_running n hs
    · rw [hrun, afterSteps, hafter, afterSteps_of_afterStep_eq (afterStep_of_halted s.halt_halted), RunEnd.state]
    · rw [hrun, afterSteps, hafter, afterSteps_of_afterStep_eq (afterStep_of_fault (s.raise_fault e)), RunEnd.state]
    · rw [hrun, afterSteps, ih hnext]

/-- Settles O54: the status agrees with the end of the run, whichever it is. -/
theorem runEndsHaltedOrFaulted : Obligations.RunEndsHaltedOrFaulted := by
  intro n s hs
  have hend {r : RunEnd} (hr : run n s = r) : r.StatusAgrees := hr ▸ run_statusAgrees n hs
  exact ⟨fun _ => hend, fun _ _ => hend, fun _ => hend, run_state n hs⟩

end Sys2Proof.Machine
end

section
/-!
SUPPORT and PROOFS. What plays no part in a step (10_state.md sections 4, 7 and 8): the configuration is never written,
an unnamed register is neither read nor written, and the output is not read.
-/

namespace Sys2Proof.Machine

/-! ### The configuration (R19, R29) -/

theorem Effect.cfg_eq {i : Instr} {s t : State} (h : Effect i s t) : t.cfg = s.cfg := by
  cases h <;> rfl

theorem afterStep_cfg (s : State) : (afterStep s).cfg = s.cfg := by
  cases hi : currentInstr s with
  | none => obtain hs | hs | ⟨e, hs⟩ := afterStep_of_currentInstr_none hi <;> rw [hs] <;> rfl
  | some i => exact (effect_of_exec (exec_of_currentInstr hi)).cfg_eq

/-- Settles O46: no effect of an instruction is on the configuration, and so by induction no number of requests. -/
theorem noStepChangesTheConfiguration : Obligations.NoStepChangesTheConfiguration := by
  refine ⟨fun i s t h => (effect_of_exec h).cfg_eq, fun n s => ?_⟩
  induction n generalizing s with
  | zero => rfl
  | succ n ih => rw [afterSteps, ih, afterStep_cfg]

/-! ### The output (R21) -/

/-- Items put before the output, the change of state R21 says no step notices. -/
def State.withEarlierOutput (o : List Int) (s : State) : State := { s with output := o ++ s.output }

theorem commutesWithExec_withEarlierOutput (o : List Int) : CommutesWithExec (State.withEarlierOutput o) where
  cfg _ := rfl
  getX _ _ := rfl
  cell _ _ := rfl
  setX _ _ _ := rfl
  setCell _ _ _ := rfl
  emit s v := by simp only [State.withEarlierOutput, State.emit, List.append_assoc]
  raise _ _ := rfl

theorem takeInput_withEarlierOutput (o : List Int) (s : State) :
    takeInput (s.withEarlierOutput o) = (takeInput s).map (Prod.map id (State.withEarlierOutput o)) := by
  cases h : s.input with
  | nil => rw [takeInput_nil h, takeInput_nil (s := s.withEarlierOutput o) h, Except.map]
  | cons v rest => rw [takeInput_cons h, takeInput_cons (s := s.withEarlierOutput o) h, Except.map]; rfl

theorem exec_withEarlierOutput (i : Instr) (s : State) (o : List Int) :
    exec i (s.withEarlierOutput o) = mapNext (State.withEarlierOutput o) (exec i s) :=
  (commutesWithExec_withEarlierOutput o).exec_comm s i fun _ _ => takeInput_withEarlierOutput o s

/-- The fault record, `halted`, the fetch and the decoder do not look at the output, and the instruction commutes. -/
theorem step_withEarlierOutput (s : State) (o : List Int) :
    step (s.withEarlierOutput o) = mapNext (State.withEarlierOutput o) (step s) := by
  cases hf : s.fault with
  | some e => rw [step_of_fault hf, step_of_fault (s := s.withEarlierOutput o) hf, mapNext]
  | none =>
    cases hh : s.halted with
    | true => rw [step_of_halted hf hh, step_of_halted (s := s.withEarlierOutput o) hf hh, mapNext]
    | false =>
      have hs : s.Running := ⟨hh, hf⟩
      have hs' : (s.withEarlierOutput o).Running := hs
      cases hw : s.fetch with
      | none =>
        have hout := fetch_eq_none.1 hw
        rw [step_of_outside hf hh hout, step_of_outside (s := s.withEarlierOutput o) hf hh hout]
        rfl
      | some w =>
        cases hd : decode w with
        | error d => rw [step_of_illegal hs hw hd, step_of_illegal hs' hw hd]; rfl
        | ok i => rw [step_of_decode hs hw hd, step_of_decode hs' hw hd, exec_withEarlierOutput]

/-- Settles O48: reset empties the output, a request appends its output transaction, and earlier output commutes with
the step. -/
theorem outputIsNeitherReadNorShortened : Obligations.OutputIsNeitherReadNorShortened := by
  refine ⟨fun _ _ => rfl, fun s t h => ⟨(transactions s).output.toList, ?_, ?_⟩, step_withEarlierOutput⟩
  · rw [← afterStep_of_next h, output_afterStep]
  · exact Option.length_toList_le

/-! ### Unnamed registers (R15) -/

section Unnamed

variable {s : State} {r : Fin 16} {v : Int}

theorem State.setX_comm {j : Fin 16} (h : j ≠ r) (s : State) (v w : Int) :
    (s.setX r v).setX j w = (s.setX j w).setX r v := by
  have hval : r.val ≠ j.val := fun e => h (Fin.ext e.symm)
  simp only [State.setX, Vector.set_comm _ _ hval]

theorem State.advance_setX (hr : r ≠ 15) (s : State) (v : Int) : (s.setX r v).advance = s.advance.setX r v := by
  simp only [State.advance, State.setIp, State.setX_comm hr.symm, State.ip_setX, if_neg hr, State.setX_cfg]

/-- An operand that does not name the register has the same value whatever the register holds. -/
theorem value_setX_of_unnamed {o : Operand} (h : o.index? ≠ some (r.val : Int)) :
    value (s.setX r v) o = value s o := by
  cases o with
  | lit w => rfl
  | reg i =>
    cases hi : slot s i with
    | error e =>
      have hi' : slot (s.setX r v) i = .error e := hi
      simp only [value, hi, hi']
    | ok j =>
      have hi' : slot (s.setX r v) i = .ok j := hi
      have hj : j ≠ r := by
        rintro rfl
        exact h (congrArg some (slot_eq_ok.1 hi))
      simp only [value, hi, hi', State.getX_setX, if_neg hj]

@[simp] theorem target_setX (s : State) (r : Fin 16) (v t : Int) : target (s.setX r v) t = target s t := rfl

@[simp] theorem memRead_setX (s : State) (r : Fin 16) (v a : Int) : memRead (s.setX r v) a = memRead s a := rfl

/-- Going on with a checked value commutes with setting the register when what follows does. -/
theorem attempt_setX {α : Type} {res : Except FaultRecord α} {k k' : α → StepOutcome}
    (hk : ∀ a, res = .ok a → k' a = mapNext (fun t => t.setX r v) (k a)) :
    attempt (s.setX r v) res k' = mapNext (fun t => t.setX r v) (attempt s res k) := by
  cases res with
  | ok a => exact hk a rfl
  | error e => rfl

variable (hr : r ≠ 15)
include hr

theorem next_advance_setX (t : State) (v : Int) :
    (.next (t.setX r v).advance : StepOutcome) = mapNext (fun t => t.setX r v) (.next t.advance) := by
  rw [State.advance_setX hr, mapNext]

/-- Writing a target that is another register, and advancing, commutes. -/
theorem next_setX_advance_setX {tgt : Int} {j : Fin 16} (ht : tgt ≠ r.val) (hj : target s tgt = .ok j) (t : State)
    (v w : Int) : (.next ((t.setX r v).setX j w).advance : StepOutcome) =
      mapNext (fun t => t.setX r v) (.next (t.setX j w).advance) := by
  have hne : j ≠ r := by
    rintro rfl
    exact ht (target_eq_ok hj)
  rw [State.setX_comm hne, next_advance_setX hr]

theorem arithmetic_setX {src1 src2 : Operand} {tgt : Int} (h1 : value (s.setX r v) src1 = value s src1)
    (h2 : value (s.setX r v) src2 = value s src2) (ht : tgt ≠ r.val) (f : Int → Int → Int) :
    arithmetic f src1 src2 tgt (s.setX r v) = mapNext (fun t => t.setX r v) (arithmetic f src1 src2 tgt s) := by
  simp only [arithmetic, h1, h2, target_setX]
  exact attempt_setX fun p _ => attempt_setX fun q _ => attempt_setX fun j hj =>
    next_setX_advance_setX hr ht hj s v (f p q)

theorem jumpWhen_setX {src addr : Operand} (h1 : value (s.setX r v) src = value s src)
    (h2 : value (s.setX r v) addr = value s addr) (c : Condition) :
    jumpWhen c src addr (s.setX r v) = mapNext (fun t => t.setX r v) (jumpWhen c src addr s) := by
  simp only [jumpWhen, h1, h2]
  refine attempt_setX fun w _ => attempt_setX fun a _ => ?_
  split
  · exact congrArg Host.Outcome.next (State.setX_comm hr.symm s v a)
  · exact next_advance_setX hr s v

/-- Setting a register that none of an instruction's operands reads and its target is not commutes with the
instruction. -/
theorem exec_setX {i : Instr} (hv : ∀ o ∈ i.sources, value (s.setX r v) o = value s o)
    (ht : ∀ t ∈ i.target?, t ≠ r.val) : exec i (s.setX r v) = mapNext (fun t => t.setX r v) (exec i s) := by
  cases i with
  | cp src tgt =>
    simp only [exec, execCp, hv src (by simp [Instr.sources]), target_setX]
    exact attempt_setX fun w _ => attempt_setX fun j hj => next_setX_advance_setX hr (ht tgt rfl) hj s v w
  | load memref tgt =>
    simp only [exec, execLoad, hv memref (by simp [Instr.sources]), target_setX, memRead_setX]
    exact attempt_setX fun a _ => attempt_setX fun j hj => attempt_setX fun w _ =>
      next_setX_advance_setX hr (ht tgt rfl) hj s v w
  | store src memref =>
    simp only [exec, execStore, hv src (by simp [Instr.sources]), hv memref (by simp [Instr.sources])]
    refine attempt_setX fun w _ => attempt_setX fun a _ => ?_
    by_cases ha : s.ValidAddress a
    · rw [memWrite_ok ha, memWrite_ok (s := s.setX r v) ha]
      exact next_advance_setX hr (s.setCell a w) v
    · rw [memWrite_error ha, memWrite_error (s := s.setX r v) ha]
      rfl
  | add src1 src2 tgt =>
    exact arithmetic_setX hr (hv src1 (by simp [Instr.sources])) (hv src2 (by simp [Instr.sources])) (ht tgt rfl) _
  | mul src1 src2 tgt =>
    exact arithmetic_setX hr (hv src1 (by simp [Instr.sources])) (hv src2 (by simp [Instr.sources])) (ht tgt rfl) _
  | sub src1 src2 tgt =>
    exact arithmetic_setX hr (hv src1 (by simp [Instr.sources])) (hv src2 (by simp [Instr.sources])) (ht tgt rfl) _
  | read tgt =>
    simp only [exec, execRead, target_setX]
    refine attempt_setX fun j hj => ?_
    cases hin : s.input with
    | nil => rw [takeInput_nil hin, takeInput_nil (s := s.setX r v) hin]; rfl
    | cons w rest =>
      rw [takeInput_cons hin, takeInput_cons (s := s.setX r v) hin]
      exact next_setX_advance_setX hr (ht tgt rfl) hj (s.withInput rest) v w
  | write src =>
    simp only [exec, execWrite, hv src (by simp [Instr.sources])]
    exact attempt_setX fun w _ => next_advance_setX hr (s.emit w) v
  | jumpZero src addr | jumpPos src addr | jumpNeg src addr =>
    exact jumpWhen_setX hr (hv src (by simp [Instr.sources])) (hv addr (by simp [Instr.sources])) _

end Unnamed

/-- Settles O47: no source operand reads the register, the target is another, and the advance is of x[15]. -/
theorem unnamedRegistersPlayNoPart : Obligations.UnnamedRegistersPlayNoPart := by
  intro i s r v hr hm
  refine exec_setX hr (fun o ho => value_setX_of_unnamed fun hi => hm ?_) fun t ht htr => hm ?_
  · exact List.mem_append_left _ (List.mem_filterMap.2 ⟨o, ho, hi⟩)
  · exact List.mem_append_right _ (Option.mem_toList.2 (htr ▸ ht))

end Sys2Proof.Machine
end
